-- ==== Sys2Proof/Word.lean ====
section
/-! DEFINITION. The machine's words: bytes, 16-bit words and addresses, and the narrower fields of an instruction word. -/

namespace Sys2Proof

/-- A register or memory cell: 8 bits, unsigned (10_state.md R10, R21). -/
abbrev Byte := BitVec 8

/-- An instruction word (30_encoding.md R53). -/
abbrev Word := BitVec 16

/-- What `pc`, `I` and a stack entry hold: 16 bits (10_state.md R13, R14, R17). -/
abbrev Addr := BitVec 16

/-- The 12-bit address field `nnn` (30_encoding.md R51). -/
abbrev Addr12 := BitVec 12

/-- A 4-bit field of an instruction word (30_encoding.md R51). -/
abbrev Nibble := BitVec 4

end Sys2Proof
end

