-- ==== Sys2Proof/Syntax.lean ====
section
/-! DEFINITION. The 35 instructions of 30_encoding.md R55, one constructor per row of spec/opcode_table.json, with the operands of its column. -/

namespace Sys2Proof

/-- A register selector, 0 to 15 (10_state.md R10). -/
abbrev Reg := Fin 16

/-- Register 15, the flag output (10_state.md R11). -/
abbrev flagReg : Reg := 15

/-- The number of sprite rows of DRW, 0 to 15 (44_display_input.md R131). -/
abbrev Rows := Fin 16

/-- The decoded instructions. RSH and LSH carry `x` alone: their `y` nibble holds no information (R56). -/
inductive Instr where
  | ext
  | cld
  | ret
  | jmp (nnn : Addr12)
  | cll (nnn : Addr12)
  | sev (x : Reg) (kk : Byte)
  | snev (x : Reg) (kk : Byte)
  | ser (x y : Reg)
  | stv (x : Reg) (kk : Byte)
  | addv (x : Reg) (kk : Byte)
  | str (x y : Reg)
  | or (x y : Reg)
  | and (x y : Reg)
  | xor (x y : Reg)
  | add (x y : Reg)
  | sub (x y : Reg)
  | rsh (x : Reg)
  | subr (x y : Reg)
  | lsh (x : Reg)
  | sner (x y : Reg)
  | sti (nnn : Addr12)
  | jmpr (nnn : Addr12)
  | rnd (x : Reg) (kk : Byte)
  | drw (x y : Reg) (d : Rows)
  | sep (x : Reg)
  | senp (x : Reg)
  | strd (x : Reg)
  | wtp (x : Reg)
  | stdr (x : Reg)
  | strs (x : Reg)
  | addi (x : Reg)
  | stis (x : Reg)
  | bcd (x : Reg)
  | ctr (x : Reg)
  | cfr (x : Reg)
  deriving DecidableEq, Repr

/-- The source's names of the instructions, in its order (30_encoding.md R55); an instruction without its operands. -/
inductive Mnemonic where
  | ext | cld | ret | jmp | cll | sev | snev | ser | stv | addv | str | or | and | xor | add | sub
  | rsh | subr | lsh | sner | sti | jmpr | rnd | drw | sep | senp | strd | wtp | stdr | strs | addi
  | stis | bcd | ctr | cfr
  deriving DecidableEq, Repr

end Sys2Proof
end

