-- ==== Sys2Proof/WellFormed.lean ====
section
/-! DEFINITION. When an instruction, given as a mnemonic and operand numbers, is well formed: the operand shapes of 30_encoding.md R63 and the field ranges of R51. -/

namespace Sys2Proof

/-- The operand shapes of 30_encoding.md R63. -/
inductive Shape where
  | none | nnn | xkk | xy | xyd | x
  deriving DecidableEq, Repr

/-- The exclusive bound of each operand of a shape, from the field widths (30_encoding.md R51). -/
def Shape.bounds : Shape → List Nat
  | .none => []
  | .nnn => [4096]
  | .xkk => [16, 256]
  | .xy => [16, 16]
  | .xyd => [16, 16, 16]
  | .x => [16]

/-- The shape each mnemonic takes (30_encoding.md R63). -/
def Mnemonic.shape : Mnemonic → Shape
  | .ext | .cld | .ret => .none
  | .jmp | .cll | .sti | .jmpr => .nnn
  | .sev | .snev | .stv | .addv | .rnd => .xkk
  | .ser | .str | .or | .and | .xor | .add | .sub | .subr | .sner => .xy
  | .rsh | .lsh | .sep | .senp | .strd | .wtp | .stdr | .strs | .addi | .stis | .bcd | .ctr | .cfr => .x
  | .drw => .xyd

/-- An instruction as numbers: a mnemonic and its operands in the order they are written. -/
structure RawInstr where
  mnemonic : Mnemonic
  operands : List Nat
  deriving DecidableEq, Repr

/-- Every operand is present, none is left over, and each fits its field. -/
def RawInstr.wf (r : RawInstr) : Bool :=
  r.operands.length == r.mnemonic.shape.bounds.length &&
    (r.operands.zip r.mnemonic.shape.bounds).all fun (v, b) => decide (v < b)

/-- The instruction of a mnemonic and its operand numbers, each taken in its field. -/
def Mnemonic.instr (m : Mnemonic) (p q r : Nat) : Instr :=
  match m with
  | .ext => .ext
  | .cld => .cld
  | .ret => .ret
  | .jmp => .jmp (BitVec.ofNat 12 p)
  | .cll => .cll (BitVec.ofNat 12 p)
  | .sev => .sev (Fin.ofNat 16 p) (BitVec.ofNat 8 q)
  | .snev => .snev (Fin.ofNat 16 p) (BitVec.ofNat 8 q)
  | .ser => .ser (Fin.ofNat 16 p) (Fin.ofNat 16 q)
  | .stv => .stv (Fin.ofNat 16 p) (BitVec.ofNat 8 q)
  | .addv => .addv (Fin.ofNat 16 p) (BitVec.ofNat 8 q)
  | .str => .str (Fin.ofNat 16 p) (Fin.ofNat 16 q)
  | .or => .or (Fin.ofNat 16 p) (Fin.ofNat 16 q)
  | .and => .and (Fin.ofNat 16 p) (Fin.ofNat 16 q)
  | .xor => .xor (Fin.ofNat 16 p) (Fin.ofNat 16 q)
  | .add => .add (Fin.ofNat 16 p) (Fin.ofNat 16 q)
  | .sub => .sub (Fin.ofNat 16 p) (Fin.ofNat 16 q)
  | .rsh => .rsh (Fin.ofNat 16 p)
  | .subr => .subr (Fin.ofNat 16 p) (Fin.ofNat 16 q)
  | .lsh => .lsh (Fin.ofNat 16 p)
  | .sner => .sner (Fin.ofNat 16 p) (Fin.ofNat 16 q)
  | .sti => .sti (BitVec.ofNat 12 p)
  | .jmpr => .jmpr (BitVec.ofNat 12 p)
  | .rnd => .rnd (Fin.ofNat 16 p) (BitVec.ofNat 8 q)
  | .drw => .drw (Fin.ofNat 16 p) (Fin.ofNat 16 q) (Fin.ofNat 16 r)
  | .sep => .sep (Fin.ofNat 16 p)
  | .senp => .senp (Fin.ofNat 16 p)
  | .strd => .strd (Fin.ofNat 16 p)
  | .wtp => .wtp (Fin.ofNat 16 p)
  | .stdr => .stdr (Fin.ofNat 16 p)
  | .strs => .strs (Fin.ofNat 16 p)
  | .addi => .addi (Fin.ofNat 16 p)
  | .stis => .stis (Fin.ofNat 16 p)
  | .bcd => .bcd (Fin.ofNat 16 p)
  | .ctr => .ctr (Fin.ofNat 16 p)
  | .cfr => .cfr (Fin.ofNat 16 p)

/-- The instruction of well-formed numbers; ill-formed ones have none. -/
def RawInstr.toInstr (r : RawInstr) : Option Instr :=
  if r.wf then
    some (r.mnemonic.instr (r.operands.getD 0 0) (r.operands.getD 1 0) (r.operands.getD 2 0))
  else none

/-- The mnemonic of an instruction. -/
def Instr.mnemonic : Instr → Mnemonic
  | .ext => .ext
  | .cld => .cld
  | .ret => .ret
  | .jmp .. => .jmp
  | .cll .. => .cll
  | .sev .. => .sev
  | .snev .. => .snev
  | .ser .. => .ser
  | .stv .. => .stv
  | .addv .. => .addv
  | .str .. => .str
  | .or .. => .or
  | .and .. => .and
  | .xor .. => .xor
  | .add .. => .add
  | .sub .. => .sub
  | .rsh .. => .rsh
  | .subr .. => .subr
  | .lsh .. => .lsh
  | .sner .. => .sner
  | .sti .. => .sti
  | .jmpr .. => .jmpr
  | .rnd .. => .rnd
  | .drw .. => .drw
  | .sep .. => .sep
  | .senp .. => .senp
  | .strd .. => .strd
  | .wtp .. => .wtp
  | .stdr .. => .stdr
  | .strs .. => .strs
  | .addi .. => .addi
  | .stis .. => .stis
  | .bcd .. => .bcd
  | .ctr .. => .ctr
  | .cfr .. => .cfr

/-- The operand numbers of an instruction, in the order the assembler writes them. -/
def Instr.operands : Instr → List Nat
  | .ext => []
  | .cld => []
  | .ret => []
  | .jmp nnn => [nnn.toNat]
  | .cll nnn => [nnn.toNat]
  | .sti nnn => [nnn.toNat]
  | .jmpr nnn => [nnn.toNat]
  | .sev x kk => [x.val, kk.toNat]
  | .snev x kk => [x.val, kk.toNat]
  | .stv x kk => [x.val, kk.toNat]
  | .addv x kk => [x.val, kk.toNat]
  | .rnd x kk => [x.val, kk.toNat]
  | .ser x y => [x.val, y.val]
  | .str x y => [x.val, y.val]
  | .or x y => [x.val, y.val]
  | .and x y => [x.val, y.val]
  | .xor x y => [x.val, y.val]
  | .add x y => [x.val, y.val]
  | .sub x y => [x.val, y.val]
  | .subr x y => [x.val, y.val]
  | .sner x y => [x.val, y.val]
  | .rsh x => [x.val]
  | .lsh x => [x.val]
  | .sep x => [x.val]
  | .senp x => [x.val]
  | .strd x => [x.val]
  | .wtp x => [x.val]
  | .stdr x => [x.val]
  | .strs x => [x.val]
  | .addi x => [x.val]
  | .stis x => [x.val]
  | .bcd x => [x.val]
  | .ctr x => [x.val]
  | .cfr x => [x.val]
  | .drw x y d => [x.val, y.val, d.val]

/-- An instruction as numbers. -/
def Instr.raw (i : Instr) : RawInstr := ⟨i.mnemonic, i.operands⟩

/-- An instruction is well formed when its operands, as numbers, fit its fields. -/
def Instr.wf (i : Instr) : Bool := i.raw.wf

end Sys2Proof
end

