-- ==== Sys2Proof/Decode.lean ====
section
/-! DEFINITION. The instruction word: its fields (30_encoding.md R51), the opcode table (R55), the decoder (R59), total on all words and rejecting by name, and after it the encoder (R63).
UNVERIFIED: every opcode number is the spec's decision D3, from general knowledge (log entry 4); unsafe. -/

namespace Sys2Proof

/-- The fields of a word, all cut at once (30_encoding.md R51). -/
structure Fields where
  group : Nibble
  x : Nibble
  y : Nibble
  d : Nibble
  kk : Byte
  nnn : Addr12
  deriving DecidableEq, Repr

/-- The views of one word (30_encoding.md R51). -/
def fields (w : Word) : Fields where
  group := w.extractLsb' 12 4
  x := w.extractLsb' 8 4
  y := w.extractLsb' 4 4
  d := w.extractLsb' 0 4
  kk := w.extractLsb' 0 8
  nnn := w.extractLsb' 0 12

/-- A row of the opcode table: `w` selects it when `w & mask = bits` (30_encoding.md R55). -/
structure OpcodeRow where
  mnemonic : Mnemonic
  bits : Word
  mask : Word
  deriving DecidableEq, Repr

/-- Rows 1 to 9 of the table (30_encoding.md R55). -/
def opcodeRowsControl : List OpcodeRow :=
  [⟨.ext, 0x0000, 0xFFFF⟩,
   ⟨.cld, 0x00E0, 0xFFFF⟩,
   ⟨.ret, 0x00EE, 0xFFFF⟩,
   ⟨.jmp, 0x1000, 0xF000⟩,
   ⟨.cll, 0x2000, 0xF000⟩,
   ⟨.sev, 0x3000, 0xF000⟩,
   ⟨.snev, 0x4000, 0xF000⟩,
   ⟨.ser, 0x5000, 0xF00F⟩,
   ⟨.stv, 0x6000, 0xF000⟩]

/-- Rows 10 to 18 of the table (30_encoding.md R55). -/
def opcodeRowsArith : List OpcodeRow :=
  [⟨.addv, 0x7000, 0xF000⟩,
   ⟨.str, 0x8000, 0xF00F⟩,
   ⟨.or, 0x8001, 0xF00F⟩,
   ⟨.and, 0x8002, 0xF00F⟩,
   ⟨.xor, 0x8003, 0xF00F⟩,
   ⟨.add, 0x8004, 0xF00F⟩,
   ⟨.sub, 0x8005, 0xF00F⟩,
   ⟨.rsh, 0x8006, 0xF00F⟩,
   ⟨.subr, 0x8007, 0xF00F⟩]

/-- Rows 19 to 27 of the table (30_encoding.md R55). -/
def opcodeRowsMiddle : List OpcodeRow :=
  [⟨.lsh, 0x800E, 0xF00F⟩,
   ⟨.sner, 0x9000, 0xF00F⟩,
   ⟨.sti, 0xA000, 0xF000⟩,
   ⟨.jmpr, 0xB000, 0xF000⟩,
   ⟨.rnd, 0xC000, 0xF000⟩,
   ⟨.drw, 0xD000, 0xF000⟩,
   ⟨.sep, 0xE09E, 0xF0FF⟩,
   ⟨.senp, 0xE0A1, 0xF0FF⟩,
   ⟨.strd, 0xF007, 0xF0FF⟩]

/-- Rows 28 to 35 of the table (30_encoding.md R55). -/
def opcodeRowsSystem : List OpcodeRow :=
  [⟨.wtp, 0xF00A, 0xF0FF⟩,
   ⟨.stdr, 0xF015, 0xF0FF⟩,
   ⟨.strs, 0xF018, 0xF0FF⟩,
   ⟨.addi, 0xF01E, 0xF0FF⟩,
   ⟨.stis, 0xF029, 0xF0FF⟩,
   ⟨.bcd, 0xF033, 0xF0FF⟩,
   ⟨.ctr, 0xF055, 0xF0FF⟩,
   ⟨.cfr, 0xF065, 0xF0FF⟩]

/-- The opcode table (30_encoding.md R55). -/
def opcodeTable : List OpcodeRow :=
  opcodeRowsControl ++ opcodeRowsArith ++ opcodeRowsMiddle ++ opcodeRowsSystem

/-- Why bytes do not decode. -/
inductive Reject where
  /-- A word that no row of the table selects (30_encoding.md R58): the machine takes the fatal INVALID_INSTRUCTION. -/
  | invalidInstruction (w : Word)
  /-- Fewer than the two bytes of a word; the fetch never asks for this (20_memory.md R33). -/
  | truncated
  deriving DecidableEq, Repr

/-- Group 0 compares the whole word (30_encoding.md R56). -/
def decodeGroup0 (w : Word) : Option Instr :=
  if w = 0x0000 then some .ext
  else if w = 0x00E0 then some .cld
  else if w = 0x00EE then some .ret
  else none

/-- Group 8 selects on `d`; RSH and LSH ignore `y` (30_encoding.md R55, R56). -/
def decodeGroup8 (x y : Reg) (d : Nibble) : Option Instr :=
  match d.toNat with
  | 0x0 => some (.str x y)
  | 0x1 => some (.or x y)
  | 0x2 => some (.and x y)
  | 0x3 => some (.xor x y)
  | 0x4 => some (.add x y)
  | 0x5 => some (.sub x y)
  | 0x6 => some (.rsh x)
  | 0x7 => some (.subr x y)
  | 0xE => some (.lsh x)
  | _ => none

/-- Group E selects on `kk` (30_encoding.md R55). -/
def decodeGroupE (x : Reg) (kk : Byte) : Option Instr :=
  match kk.toNat with
  | 0x9E => some (.sep x)
  | 0xA1 => some (.senp x)
  | _ => none

/-- Group F selects on `kk` (30_encoding.md R55). -/
def decodeGroupF (x : Reg) (kk : Byte) : Option Instr :=
  match kk.toNat with
  | 0x07 => some (.strd x)
  | 0x0A => some (.wtp x)
  | 0x15 => some (.stdr x)
  | 0x18 => some (.strs x)
  | 0x1E => some (.addi x)
  | 0x29 => some (.stis x)
  | 0x33 => some (.bcd x)
  | 0x55 => some (.ctr x)
  | 0x65 => some (.cfr x)
  | _ => none

/-- The instruction a word selects, if any: the decoder of 30_encoding.md R59. -/
def select (w : Word) : Option Instr :=
  let f := fields w
  let x : Reg := f.x.toFin
  let y : Reg := f.y.toFin
  match f.group.toNat with
  | 0x0 => decodeGroup0 w
  | 0x1 => some (.jmp f.nnn)
  | 0x2 => some (.cll f.nnn)
  | 0x3 => some (.sev x f.kk)
  | 0x4 => some (.snev x f.kk)
  | 0x5 => if f.d = 0 then some (.ser x y) else none
  | 0x6 => some (.stv x f.kk)
  | 0x7 => some (.addv x f.kk)
  | 0x8 => decodeGroup8 x y f.d
  | 0x9 => if f.d = 0 then some (.sner x y) else none
  | 0xA => some (.sti f.nnn)
  | 0xB => some (.jmpr f.nnn)
  | 0xC => some (.rnd x f.kk)
  | 0xD => some (.drw x y f.d.toFin)
  | 0xE => decodeGroupE x f.kk
  | 0xF => decodeGroupF x f.kk
  | _ => none

/-- Decode one word: an instruction, or the rejection by name (30_encoding.md R52, R58). -/
def decode (w : Word) : Except Reject Instr :=
  match select w with
  | some i => .ok i
  | none => .error (.invalidInstruction w)

/-- The word of two bytes, big-endian: the byte at the lower address is the high one (20_memory.md R34). -/
def wordOfBytes (hi lo : Byte) : Word := hi ++ lo

/-- The byte of a word stored at the lower address (20_memory.md R34). -/
def highByte (w : Word) : Byte := w.extractLsb' 8 8

/-- The byte of a word stored at the higher address (20_memory.md R34). -/
def lowByte (w : Word) : Byte := w.extractLsb' 0 8

/-- Decode the instruction at the front of a byte list and give the bytes after it. -/
def decodeBytes : List Byte → Except Reject (Instr × List Byte)
  | hi :: lo :: rest => (decode (wordOfBytes hi lo)).map fun i => (i, rest)
  | _ => .error .truncated

/-- A selector or count as the 4-bit field that holds it (30_encoding.md R54). -/
def nibble (x : Fin 16) : Nibble := BitVec.ofFin x

/-- The word of format XYD (30_encoding.md R53). -/
def wordXYD (group : Nibble) (x y : Reg) (d : Nibble) : Word :=
  group ++ nibble x ++ nibble y ++ d

/-- The word of format XKK (30_encoding.md R53). -/
def wordXKK (group : Nibble) (x : Reg) (kk : Byte) : Word := group ++ nibble x ++ kk

/-- The word of format NNN (30_encoding.md R53). -/
def wordNNN (group : Nibble) (nnn : Addr12) : Word := group ++ nnn

/-- The word the assembler emits: the row's pattern with the operands in their fields; `y = 0` in RSH and LSH (30_encoding.md R63). -/
def encode : Instr → Word
  | .ext => 0x0000
  | .cld => 0x00E0
  | .ret => 0x00EE
  | .jmp nnn => wordNNN 0x1 nnn
  | .cll nnn => wordNNN 0x2 nnn
  | .sev x kk => wordXKK 0x3 x kk
  | .snev x kk => wordXKK 0x4 x kk
  | .ser x y => wordXYD 0x5 x y 0x0
  | .stv x kk => wordXKK 0x6 x kk
  | .addv x kk => wordXKK 0x7 x kk
  | .str x y => wordXYD 0x8 x y 0x0
  | .or x y => wordXYD 0x8 x y 0x1
  | .and x y => wordXYD 0x8 x y 0x2
  | .xor x y => wordXYD 0x8 x y 0x3
  | .add x y => wordXYD 0x8 x y 0x4
  | .sub x y => wordXYD 0x8 x y 0x5
  | .rsh x => wordXYD 0x8 x 0 0x6
  | .subr x y => wordXYD 0x8 x y 0x7
  | .lsh x => wordXYD 0x8 x 0 0xE
  | .sner x y => wordXYD 0x9 x y 0x0
  | .sti nnn => wordNNN 0xA nnn
  | .jmpr nnn => wordNNN 0xB nnn
  | .rnd x kk => wordXKK 0xC x kk
  | .drw x y d => wordXYD 0xD x y (nibble d)
  | .sep x => wordXKK 0xE x 0x9E
  | .senp x => wordXKK 0xE x 0xA1
  | .strd x => wordXKK 0xF x 0x07
  | .wtp x => wordXKK 0xF x 0x0A
  | .stdr x => wordXKK 0xF x 0x15
  | .strs x => wordXKK 0xF x 0x18
  | .addi x => wordXKK 0xF x 0x1E
  | .stis x => wordXKK 0xF x 0x29
  | .bcd x => wordXKK 0xF x 0x33
  | .ctr x => wordXKK 0xF x 0x55
  | .cfr x => wordXKK 0xF x 0x65

/-- The instruction the decoder reads from a table word: the word laid out big-endian (20_memory.md R34), its bits above `nbits` zero. -/
def decodeTableWord (nbits w : Nat) : Option Instr :=
  let word : Word := BitVec.ofNat 16 (w % 2 ^ nbits)
  match decodeBytes [highByte word, lowByte word] with
  | .ok (i, _) => some i
  | .error _ => none

end Sys2Proof
end

