-- ==== Sys2Proof/Machine/Flags.lean ====
section
/-! DEFINITION. The values that instructions leave in register 15 as a flag, each the byte 0 or 1 (10_state.md R11, R12). -/

namespace Sys2Proof.Machine

/-- A flag as the byte written to register 15 (10_state.md R11). -/
def flagByte (b : Bool) : Byte := if b then 1 else 0

/-- The carry of an addition: 1 when the true sum is above 255 (41_load_arithmetic.md R92, R93). -/
def carryFlag (a b : Byte) : Byte := flagByte (decide (255 < a.toNat + b.toNat))

/-- NOT borrow: 1 when the minuend is at least the subtrahend (41_load_arithmetic.md R97, R99). -/
def notBorrowFlag (minuend subtrahend : Byte) : Byte :=
  flagByte (decide (subtrahend.toNat ≤ minuend.toNat))

/-- The bit a right shift moves out: bit 0 (41_load_arithmetic.md R98). -/
def lowBitFlag (a : Byte) : Byte := flagByte (a.getLsbD 0)

/-- The bit a left shift moves out: bit 7 (41_load_arithmetic.md R100). -/
def highBitFlag (a : Byte) : Byte := flagByte (a.getLsbD 7)

end Sys2Proof.Machine
end

