-- ==== Sys2Proof/Config.lean ====
section
/-! DEFINITION. What is fixed for the machine (00_scope.md section 4) and the values nothing fixes: the free inputs and the assembler's placeholder. -/

namespace Sys2Proof.Config

/-- MEM_SIZE: addresses 0 to 4095 (10_state.md R21). -/
def memSize : Nat := 4096

/-- PROGRAM_START, the reset value of `pc` (10_state.md R24).
UNVERIFIED: the number is the spec's decision D1, taken there from general knowledge (log entry 1); unsafe. -/
def programStart : Addr := 0x200

/-- Bytes per glyph (10_state.md R25). -/
def glyphSize : Nat := 5

/-- Glyphs 0 to 7 of GLYPH_TABLE (10_state.md R25). -/
def glyphsLow : List Byte :=
  [0xF0, 0x90, 0x90, 0x90, 0xF0] ++ [0x20, 0x60, 0x20, 0x20, 0x70] ++
  [0xF0, 0x10, 0xF0, 0x80, 0xF0] ++ [0xF0, 0x10, 0xF0, 0x10, 0xF0] ++
  [0x90, 0x90, 0xF0, 0x10, 0x10] ++ [0xF0, 0x80, 0xF0, 0x10, 0xF0] ++
  [0xF0, 0x80, 0xF0, 0x90, 0xF0] ++ [0xF0, 0x10, 0x20, 0x40, 0x40]

/-- Glyphs 8 to F of GLYPH_TABLE (10_state.md R25). -/
def glyphsHigh : List Byte :=
  [0xF0, 0x90, 0xF0, 0x90, 0xF0] ++ [0xF0, 0x90, 0xF0, 0x10, 0xF0] ++
  [0xF0, 0x90, 0xF0, 0x90, 0x90] ++ [0xE0, 0x90, 0xE0, 0x90, 0xE0] ++
  [0xF0, 0x80, 0x80, 0x80, 0xF0] ++ [0xE0, 0x90, 0x90, 0x90, 0xE0] ++
  [0xF0, 0x80, 0xF0, 0x80, 0xF0] ++ [0xF0, 0x80, 0xF0, 0x80, 0x80]

/-- GLYPH_TABLE, 80 bytes at address 0 (10_state.md R25).
UNVERIFIED: the bytes are the spec's default D2, from general knowledge (log entry 2); unsafe. -/
def glyphTable : List Byte := glyphsLow ++ glyphsHigh

/-- FREE: the key state the host supplies with the `n`-th tick that no act of the schedule describes
(44_display_input.md R133; log entry 3). -/
opaque freeKeys : Nat → Option (BitVec 16)

/-- FREE: the random byte of the `n`-th such tick (42_random.md R110; log entry 3). -/
opaque freeRnd : Nat → Byte

/-- FREE: the display sink of the `n`-th such tick and its collision answers (44_display_input.md R130; log entry 3). -/
opaque freeSink : Nat → Option (BitVec 15)

/-- FREE: how many TimerTick steps fall before the `n`-th such tick (45_timers.md R148; log entry 3). -/
opaque freeTimerSteps : Nat → Nat

/-- FREE: the assembler's sentinel word, whose value no source gives (30_encoding.md R66, 91_not_in_source.md N11; log entry 20). -/
opaque placeholderWord : Word

/-- FREE: for a source text, the key of its `n`-th definition; the order of the keys is the order in which the assembler appends
the definitions (30_encoding.md R65, 91_not_in_source.md N13; log entry 22). -/
opaque definitionKey : List (List Char) → Nat → Nat

/-- FREE: for a source text, the place of the image (counted in words) that resolution patches for the `n`-th reference written
inside a definition, or none (30_encoding.md R66, 91_not_in_source.md N13; log entry 22). -/
opaque patchedSite : List (List Char) → Nat → Option Nat

end Sys2Proof.Config
end

