-- ==== Sys2Proof/Machine/State.lean ====
section
/-! DEFINITION. The state of the machine as plain data: the engine's state of 10_state.md R10 to R22, its ports (00_scope.md section 2, 92_eei_decisions.md D21), the host's schedule, and the state after reset (10_state.md R24). -/

namespace Sys2Proof.Machine

/-- Memory: the bytes that differ from the reset contents, at strictly rising addresses (10_state.md R21).
What an unlisted address reads as is `Memory.initial` (Machine/Ops.lean). -/
abbrev Memory := List Host.Cell

/-- The five fatal conditions with the information each records (60_exceptions.md R155).
`a` is the address the instruction was fetched from. -/
inductive Fatal where
  /-- Code 1: the fetched word matches no row of the opcode table (R156). -/
  | invalidInstruction (w : Word) (a : Addr)
  /-- Code 2: CLL with 16 entries in use (R157). -/
  | stackOverflow (a : Addr)
  /-- Code 3: RET with no entry in use (R158). -/
  | stackUnderflow (a : Addr)
  /-- Code 4: SEP or SENP with a key index above 15 (R159). -/
  | invalidKeyIndex (k : Byte) (a : Addr)
  /-- Code 5: an access above address 4095; `first` is the lowest such address of the access (R160). -/
  | memoryOutOfRange (first : Addr) (a : Addr)
  deriving DecidableEq, Repr

/-- How a tick ended (00_scope.md R4). -/
inductive TickReport where
  /-- `continue = true`. -/
  | continued
  /-- `continue = false`: the halt sentinel was executed. -/
  | halted
  /-- A fatal condition arose. -/
  | fatal
  deriving DecidableEq, Repr

/-- A command the engine sends on the display port (44_display_input.md R130). -/
inductive DisplayCmd where
  | clear
  /-- One sprite row: `x` of 8 bits, `y` of 9 bits (0 to 269, not reduced), the pattern. -/
  | drawRow (x : Byte) (y : BitVec 9) (pattern : Byte)
  deriving DecidableEq, Repr

/-- The inputs of one tick, sampled once and constant during it (00_scope.md section 2). -/
structure TickInput where
  /-- The key state: bit `k` is "key `k` is pressed"; `none` when the host supplies none (44_display_input.md R133). -/
  keys : Option (BitVec 16)
  /-- The random byte (42_random.md R110). -/
  rnd : Byte
  /-- The display sink: bit `r` is its collision answer to the `r`-th `drawRow` of the tick; `none` when there is
  no display (44_display_input.md R130). -/
  sink : Option (BitVec 15)
  deriving DecidableEq, Repr

/-- What the world outside the engine does next (70_reset_and_hazards.md R184, R185; the input ports of 92_eei_decisions.md D21). -/
inductive HostAct where
  /-- Request one tick with these inputs (00_scope.md R2). -/
  | tick (inp : TickInput)
  /-- One step of the TimerTick agent (45_timers.md R148). -/
  | timerTick
  /-- Reset the machine (70_reset_and_hazards.md R180, R182). -/
  | reset
  /-- The loader writes a program image (70_reset_and_hazards.md R184). -/
  | load (image : List Word)
  deriving DecidableEq, Repr

/-- The whole state. The first group is the spec's own; the second is the model's: the ports, which the spec makes
parameters of the step (10_state.md R23), the schedule that says which agent moves next, and the free-value counter. -/
structure State where
  /-- `V[0]` .. `V[15]` (10_state.md R10); register 15 is the flag output (R11). -/
  v : Vector Byte 16
  /-- The address register `I` (10_state.md R13). -/
  i : Addr
  /-- The program counter (10_state.md R14). -/
  pc : Addr
  /-- The stack pointer: entries in use, 0 to 16 (10_state.md R17; log entry 25). -/
  sp : Fin 17
  /-- The call stack (10_state.md R17). -/
  stack : Vector Addr 16
  /-- The delay timer `DT` (10_state.md R19). -/
  dt : Byte
  /-- The sound timer `ST` (10_state.md R19). -/
  st : Byte
  /-- Memory (10_state.md R21). -/
  mem : Memory
  /-- The `FAULT` latch with the cause and information it presents; `none` is clear (10_state.md R22, 60_exceptions.md R161). -/
  fault : Option Fatal
  /-- The model's: how the last tick ended (00_scope.md R4); `none` before the first tick (log entry 28). -/
  report : Option TickReport
  /-- The model's: the inputs sampled for the current tick (44_display_input.md R133). -/
  input : TickInput
  /-- The model's: the commands the display sink has received, oldest first (44_display_input.md R130; log entry 27). -/
  display : List DisplayCmd
  /-- The model's: what the host does next, the first act first; when it is empty the host ticks with free inputs (log entries 3, 26). -/
  host : List HostAct
  /-- The model's: how many ticks have taken free inputs. -/
  freeIx : Nat
  deriving DecidableEq, Repr

/-- Why the machine stops. No instruction and no tick raises one: the five fatal conditions are states (60_exceptions.md R161).
Only an act of the loader that breaks an obligation of 70_reset_and_hazards.md stops the model. -/
inductive Fault where
  /-- Raised by the act `load` when the image runs past address 4095: "The image must fit" (R184).
  Safe: the model stops where the spec describes no run. -/
  | imageDoesNotFit
  /-- Raised by the act `load` after the first tick: the host is assumed not to write Memory then (R186).
  Safe: the model stops where the spec describes no run. -/
  | loadAfterFirstTick
  deriving DecidableEq, Repr

/-- Why an instruction has no meaning. -/
inductive Refusal where
  /-- Raised by an arm of `exec` whose instruction has no meaning yet; no arm is left that does. Safe: the model stops. -/
  | notModelled (mnemonic : String)
  deriving DecidableEq, Repr

/-- The input ports before any tick has sampled them. DESIGN CHOICE: no rule reads them then (log entry 5); safe. -/
def TickInput.idle : TickInput := ⟨none, 0, none⟩

/-- The machine right after reset (10_state.md R24): `pc` at PROGRAM_START, memory at its reset contents (nothing listed),
everything else zero or clear. UNVERIFIED: the zeros are the spec's decision D10 (log entry 6); unsafe.
The model's own fields: no tick yet, no command sent, an empty schedule (DESIGN CHOICE, log entry 5). -/
def State.reset : State where
  v := Vector.replicate 16 0
  i := 0
  pc := Config.programStart
  sp := 0
  stack := Vector.replicate 16 0
  dt := 0
  st := 0
  mem := []
  fault := none
  report := none
  input := TickInput.idle
  display := []
  host := []
  freeIx := 0

end Sys2Proof.Machine
end

