-- ==== Sys2Proof/Machine/Operands.lean ====
section
/-! DEFINITION. Every operand form of the instructions: a register, an immediate, a 12-bit address, a count, the base address `I`, the tick's inputs. -/

namespace Sys2Proof.Machine

/-- `V[x]` (10_state.md R10). -/
def State.reg (s : State) (x : Reg) : Byte := s.v[x]

/-- `nnn` zero-extended to 16 bits (30_encoding.md R54). -/
def zext16 (nnn : Addr12) : Addr := nnn.zeroExtend 16

/-- An 8-bit value zero-extended to 16 bits. -/
def byteToAddr (b : Byte) : Addr := b.zeroExtend 16

/-- The target of JMPR: `nnn + V[0]`, not reduced (40_control_flow.md R78). -/
def State.indexedTarget (s : State) (nnn : Addr12) : Addr := zext16 nnn + byteToAddr (s.reg 0)

/-- The address the executing instruction was fetched from: `pc` is already two past it (30_encoding.md R50). -/
def State.instrAddr (s : State) : Addr := s.pc - 2

/-- The effective address `I + k`, an unbounded sum (43_memory_address.md R121, 20_memory.md R32). -/
def State.effAddr (s : State) (k : Nat) : Nat := s.i.toNat + k

/-- The lowest address above 4095 among the `n` addresses from `base` on, if there is one (60_exceptions.md R160; log entry 29). -/
def firstOutside (base n : Nat) : Option Nat :=
  if n = 0 then none
  else if base + (n - 1) < Config.memSize then none
  else some (max base Config.memSize)

/-- `keys[k]` of this tick; without a key state every key is up (44_display_input.md R133; UNVERIFIED: the absent case is D17, log entry 7). -/
def State.keyDown (s : State) (k : Nat) : Bool :=
  match s.input.keys with
  | some keys => keys.getLsbD k
  | none => false

/-- The lowest pressed key, if any (44_display_input.md R136; UNVERIFIED: "lowest" is D17, log entry 8). -/
def State.lowestKey (s : State) : Option Nat := (List.range 16).find? fun k => s.keyDown k

/-- The display's collision answer to the `r`-th row of this tick; a missing display answers 0
(44_display_input.md R130; UNVERIFIED: D16, log entry 9). -/
def State.collision (s : State) (r : Nat) : Bool :=
  match s.input.sink with
  | some answers => answers.getLsbD r
  | none => false

/-- The decimal digits of a byte, hundreds first (43_memory_address.md R118). -/
def decimalDigits (b : Byte) : List Byte :=
  [BitVec.ofNat 8 (b.toNat / 100), BitVec.ofNat 8 (b.toNat / 10 % 10), BitVec.ofNat 8 (b.toNat % 10)]

/-- The address of glyph `b`: `5 * b`, the operand not masked (43_memory_address.md R117). -/
def glyphAddr (b : Byte) : Addr := BitVec.ofNat 16 (Config.glyphSize * b.toNat)

/-- The values of registers 0 to `x`, register 0 first (43_memory_address.md R119). -/
def State.regsUpTo (s : State) (x : Reg) : List Byte := s.v.toList.take (x.val + 1)

end Sys2Proof.Machine
end

