-- ==== Sys2Proof/Machine/Ops.lean ====
section
/-! DEFINITION. The named operations over registers, memory, the stack, the timers and the ports, and taking a fatal condition. -/

namespace Sys2Proof.Machine

/-! ### Memory -/

/-- What an address nothing has written reads as: the glyph table at 0 to 79, zero above (10_state.md R24, R25).
UNVERIFIED: the glyph bytes are D2 (log entry 2) and the zeros D10 (log entry 6); unsafe. -/
def Memory.initial (a : Nat) : Byte := Config.glyphTable.getD a 0

/-- The canonical form: addresses inside the address space and strictly rising, no entry equal to the reset contents. -/
abbrev Memory.wf (m : Memory) : Prop :=
  m.Pairwise (fun p q => p.1 < q.1) ∧ ∀ p ∈ m, p.1 < Config.memSize ∧ p.2 ≠ Memory.initial p.1

/-- The byte at an address (20_memory.md R30). -/
def Memory.read : Memory → Nat → Byte
  | [], a => Memory.initial a
  | (b, w) :: m, a => if a = b then w else Memory.read m a

/-- Store a byte (20_memory.md R31), keeping the canonical form. -/
def Memory.write : Memory → Nat → Byte → Memory
  | [], a, v => if v = Memory.initial a then [] else [(a, v)]
  | (b, w) :: m, a, v =>
    if a < b then (if v = Memory.initial a then (b, w) :: m else (a, v) :: (b, w) :: m)
    else if a = b then (if v = Memory.initial a then m else (a, v) :: m)
    else (b, w) :: Memory.write m a v

/-- Store bytes at ascending addresses (20_memory.md R37). -/
def Memory.writeBytes (m : Memory) (a : Nat) : List Byte → Memory
  | [] => m
  | v :: vs => Memory.writeBytes (Memory.write m a v) (a + 1) vs

/-- The bytes that store words big-endian, one after another (20_memory.md R31, R34). -/
def bytesOfWords (ws : List Word) : List Byte := ws.flatMap fun w => [highByte w, lowByte w]

/-- The byte of memory at an address. -/
def State.byteAt (s : State) (a : Nat) : Byte := s.mem.read a

/-- The 16-bit word at an address, big-endian (20_memory.md R30, R34). -/
def State.wordAt (s : State) (a : Nat) : Word := wordOfBytes (s.byteAt a) (s.byteAt (a + 1))

/-- Store bytes from an address on. The caller has checked the range (20_memory.md R32). -/
def State.storeBytes (s : State) (a : Nat) (vs : List Byte) : State :=
  { s with mem := s.mem.writeBytes a vs }

/-! ### Registers, program counter, stack, timers -/

/-- `V[x] <- b` (10_state.md R10). -/
def State.setReg (s : State) (x : Reg) (b : Byte) : State := { s with v := s.v.set x b }

/-- Overwrite register 15 with a flag (10_state.md R11). -/
def State.setFlag (s : State) (b : Byte) : State := s.setReg flagReg b

/-- `V[k] <- b k` for `k` = 0 to `x`; the registers above `x` are untouched (43_memory_address.md R120). -/
def State.setRegsUpTo (s : State) (x : Reg) (b : Nat → Byte) : State :=
  { s with v := Vector.ofFn fun k : Fin 16 => if k.val ≤ x.val then b k.val else s.v[k] }

/-- `I <- a` (10_state.md R13). -/
def State.setI (s : State) (a : Addr) : State := { s with i := a }

/-- `pc <- a` (10_state.md R14). -/
def State.setPc (s : State) (a : Addr) : State := { s with pc := a }

/-- Skip the next instruction when the condition holds: `pc <- pc + 2` (40_control_flow.md R74). -/
def State.skipIf (s : State) (c : Bool) : State := s.setPc (if c then s.pc + 2 else s.pc)

/-- Push an address on a stack with room (40_control_flow.md R73). -/
def State.push (s : State) (a : Addr) (room : s.sp.val < 16) : State :=
  { s with stack := s.stack.set s.sp.val a, sp := ⟨s.sp.val + 1, by omega⟩ }

/-- Pop the top entry into `pc`; the entry keeps its value (40_control_flow.md R71, 10_state.md R18). -/
def State.popPc (s : State) (used : 0 < s.sp.val) : State :=
  { s with sp := ⟨s.sp.val - 1, by omega⟩, pc := s.stack[s.sp.val - 1]'(by omega) }

/-- `DT <- b` (45_timers.md R146). -/
def State.setDt (s : State) (b : Byte) : State := { s with dt := b }

/-- `ST <- b` (45_timers.md R147). -/
def State.setSt (s : State) (b : Byte) : State := { s with st := b }

/-- A timer after one decrement; it stops at 0 (45_timers.md R148). -/
def decrement (t : Byte) : Byte := if t = 0 then 0 else t - 1

/-- A timer after `n` decrements (45_timers.md R148). -/
def decrementBy (t : Byte) (n : Nat) : Byte := BitVec.ofNat 8 (t.toNat - n)

/-- One step of the TimerTick agent (45_timers.md R148).
UNVERIFIED: stopping at zero and both timers together are D18 (log entry 10); unsafe. -/
def State.timerTick (s : State) : State := { s with dt := decrement s.dt, st := decrement s.st }

/-- `n` steps of the TimerTick agent at once (45_timers.md R148). -/
def State.timerTicks (s : State) (n : Nat) : State :=
  { s with dt := decrementBy s.dt n, st := decrementBy s.st n }

/-! ### The ports -/

/-- Send commands on the display port; a missing display ignores them (44_display_input.md R130; UNVERIFIED: D16, log entry 9). -/
def State.send (s : State) (cmds : List DisplayCmd) : State :=
  { s with display := s.display ++ (if s.input.sink.isSome then cmds else []) }

/-- Report the halt: `continue = false` (40_control_flow.md R70). -/
def State.halt (s : State) : State := { s with report := some .halted }

/-- The sprite rows of DRW: row `r` is the byte at `I + r`, sent with vertical coordinate `V[y] + r` (44_display_input.md R131). -/
def State.spriteRows (s : State) (cx cy : Byte) (d : Rows) : List DisplayCmd :=
  (List.range d.val).map fun r =>
    .drawRow cx (cy.zeroExtend 9 + BitVec.ofNat 9 r) (s.byteAt (s.effAddr r))

/-- The OR of the display's answers to the rows of DRW (44_display_input.md R131). -/
def State.collisionOf (s : State) (d : Rows) : Bool := (List.range d.val).any fun r => s.collision r

/-- The output `sound`: `ST != 0` (92_eei_decisions.md D21, outside the block). -/
def State.sound (s : State) : Bool := decide (s.st ≠ 0)

/-! ### Taking a fatal condition -/

/-- The cause code on the output `cause` (60_exceptions.md R155; UNVERIFIED: the numbers are D8, log entry 11). -/
def Fatal.code : Fatal → BitVec 3
  | .invalidInstruction .. => 1
  | .stackOverflow .. => 2
  | .stackUnderflow .. => 3
  | .invalidKeyIndex .. => 4
  | .memoryOutOfRange .. => 5

/-- The address of the instruction, the part of `info` every cause records (60_exceptions.md R155). -/
def Fatal.address : Fatal → Addr
  | .invalidInstruction _ a | .stackOverflow a | .stackUnderflow a | .invalidKeyIndex _ a
  | .memoryOutOfRange _ a => a

/-- The other part of `info`, for the causes that record one (60_exceptions.md R155). -/
def Fatal.detail : Fatal → Option (BitVec 16)
  | .invalidInstruction w _ => some w
  | .stackOverflow _ | .stackUnderflow _ => none
  | .invalidKeyIndex k _ => some (byteToAddr k)
  | .memoryOutOfRange first _ => some first

/-- Fatal entry: the `FAULT` latch is set with its cause and information and the tick ends fatal; nothing else
changes, so `pc` is what the fetch left (60_exceptions.md R161; UNVERIFIED: D9, log entry 12). There is no return (R162). -/
def State.raise (s : State) (f : Fatal) : State :=
  { s with fault := some f, report := some .fatal }

/-- The bounds check of an access of `n` bytes at `I`, before any of them moves (20_memory.md R32, R37): the fatal
condition it raises, if any. -/
def State.rangeFatal (s : State) (n : Nat) : Option Fatal :=
  (firstOutside s.i.toNat n).map fun first => .memoryOutOfRange (BitVec.ofNat 16 first) s.instrAddr

end Sys2Proof.Machine
end

