-- ==== Sys2Proof/Machine/ControlFlow.lean ====
section
/-! DEFINITION. The meanings of EXT, RET, JMP, CLL, SEV, SNEV, SER, SNER and JMPR (40_control_flow.md). On entry `pc` is already two past the instruction. -/

namespace Sys2Proof.Machine

/-- The outcome of running an instruction. -/
abbrev Outcome := Host.Outcome State Fault Refusal

/-- EXT: the tick reports `continue = false` (R70). -/
def execExt (s : State) : Outcome := .next s.halt

/-- RET: pop the stack into `pc`; fatal when it is empty (R71). -/
def execRet (s : State) : Outcome :=
  if used : 0 < s.sp.val then .next (s.popPc used)
  else .next (s.raise (.stackUnderflow s.instrAddr))

/-- JMP nnn: `pc <- nnn` (R72). -/
def execJmp (nnn : Addr12) (s : State) : Outcome := .next (s.setPc (zext16 nnn))

/-- CLL nnn: push `pc` and jump; fatal when the stack is full (R73). -/
def execCll (nnn : Addr12) (s : State) : Outcome :=
  if room : s.sp.val < 16 then .next ((s.push s.pc room).setPc (zext16 nnn))
  else .next (s.raise (.stackOverflow s.instrAddr))

/-- SEV x kk: skip when `V[x] = kk` (R74). -/
def execSev (x : Reg) (kk : Byte) (s : State) : Outcome := .next (s.skipIf (s.reg x == kk))

/-- SNEV x kk: skip when `V[x] != kk` (R75). -/
def execSnev (x : Reg) (kk : Byte) (s : State) : Outcome := .next (s.skipIf (s.reg x != kk))

/-- SER x y: skip when `V[x] = V[y]` (R76). -/
def execSer (x y : Reg) (s : State) : Outcome := .next (s.skipIf (s.reg x == s.reg y))

/-- SNER x y: skip when `V[x] != V[y]` (R77). -/
def execSner (x y : Reg) (s : State) : Outcome := .next (s.skipIf (s.reg x != s.reg y))

/-- JMPR nnn: `pc <- nnn + V[0]`, not reduced (R78; UNVERIFIED: D28, log entry 13). -/
def execJmpr (nnn : Addr12) (s : State) : Outcome := .next (s.setPc (s.indexedTarget nnn))

end Sys2Proof.Machine
end

