-- ==== Sys2Proof/Machine/MemoryAddress.lean ====
section
/-! DEFINITION. The meanings of STI, ADDI, STIS, BCD, CTR and CFR (43_memory_address.md). -/

namespace Sys2Proof.Machine

/-- Run `k` unless the access of `n` bytes at `I` is out of range; then take the fatal condition with nothing moved (20_memory.md R32, R37). -/
def State.guarded (s : State) (n : Nat) (k : State) : Outcome :=
  match s.rangeFatal n with
  | some f => .next (s.raise f)
  | none => .next k

/-- STI nnn (R115). -/
def execSti (nnn : Addr12) (s : State) : Outcome := .next (s.setI (zext16 nnn))

/-- ADDI x: the sum wraps at 16 bits and writes no flag (R116; UNVERIFIED: D11, D14, log entries 15 and 16). -/
def execAddi (x : Reg) (s : State) : Outcome := .next (s.setI (s.i + byteToAddr (s.reg x)))

/-- STIS x: `I <- 5 * V[x]` (R117; UNVERIFIED above 15: D27, log entry 13). -/
def execStis (x : Reg) (s : State) : Outcome := .next (s.setI (glyphAddr (s.reg x)))

/-- BCD x: hundreds, tens and ones at `I`, `I + 1`, `I + 2` (R118). -/
def execBcd (x : Reg) (s : State) : Outcome :=
  s.guarded 3 (s.storeBytes (s.effAddr 0) (decimalDigits (s.reg x)))

/-- CTR x: registers 0 to `x` to memory from `I` on (R119). -/
def execCtr (x : Reg) (s : State) : Outcome :=
  s.guarded (x.val + 1) (s.storeBytes (s.effAddr 0) (s.regsUpTo x))

/-- CFR x: memory from `I` on to registers 0 to `x` (R120). -/
def execCfr (x : Reg) (s : State) : Outcome :=
  s.guarded (x.val + 1) (s.setRegsUpTo x fun k => s.byteAt (s.effAddr k))

end Sys2Proof.Machine
end

