-- ==== Sys2Proof/Machine/DisplayInput.lean ====
section
/-! DEFINITION. The meanings of CLD, DRW, SEP, SENP and WTP (44_display_input.md). -/

namespace Sys2Proof.Machine

/-- CLD: one `clear` command (R132). -/
def execCld (s : State) : Outcome := .next (s.send [.clear])

/-- DRW x y d: `d` rows from memory at `I` to the display, the OR of its answers to register 15
(R131; UNVERIFIED: the flag is D16, log entry 9). -/
def execDrw (x y : Reg) (d : Rows) (s : State) : Outcome :=
  s.guarded d.val
    ((s.send (s.spriteRows (s.reg x) (s.reg y) d)).setFlag (flagByte (s.collisionOf d)))

/-- Skip when key `V[x]` is in the wanted position; an index above 15 is fatal (R134, R135). -/
def State.skipOnKey (s : State) (x : Reg) (wanted : Bool) : Outcome :=
  if 15 < (s.reg x).toNat then .next (s.raise (.invalidKeyIndex (s.reg x) s.instrAddr))
  else .next (s.skipIf (s.keyDown (s.reg x).toNat == wanted))

/-- SEP x: skip when key `V[x]` is pressed (R134). -/
def execSep (x : Reg) (s : State) : Outcome := s.skipOnKey x true

/-- SENP x: skip when key `V[x]` is not pressed (R135). -/
def execSenp (x : Reg) (s : State) : Outcome := s.skipOnKey x false

/-- WTP x: the lowest pressed key to `V[x]`, or back to this instruction when no key is pressed (R136; log entries 8 and 31). -/
def execWtp (x : Reg) (s : State) : Outcome :=
  .next (match s.lowestKey with
    | some k => s.setReg x (BitVec.ofNat 8 k)
    | none => s.setPc s.instrAddr)

end Sys2Proof.Machine
end

