-- ==== Sys2Proof/Machine/LoadArith.lean ====
section
/-! DEFINITION. The meanings of STV, STR, ADDV, ADD, OR, AND, XOR, SUB, RSH, SUBR and LSH (41_load_arithmetic.md).
UNVERIFIED: with register 15 as destination the write orders are D12 and D13 (log entry 14); unsafe. -/

namespace Sys2Proof.Machine

/-- `V[x] <- V[x] + b`, then the carry to register 15: the path ADDV and ADD share (R92, R93). -/
def State.addTo (s : State) (x : Reg) (b : Byte) : State :=
  (s.setReg x (s.reg x + b)).setFlag (carryFlag (s.reg x) b)

/-- `V[x] <- p - q`, then not-borrow to register 15: the path SUB and SUBR share (R97, R99). -/
def State.subTo (s : State) (x : Reg) (p q : Byte) : State :=
  (s.setReg x (p - q)).setFlag (notBorrowFlag p q)

/-- The flag to register 15 first, then `V[x]`, read again, shifted in place: the path RSH and LSH share (R98, R100). -/
def State.shiftInPlace (s : State) (x : Reg) (flag : Byte) (shift : Byte → Byte) : State :=
  let s₁ := s.setFlag flag
  s₁.setReg x (shift (s₁.reg x))

/-- STV x kk (R90). -/
def execStv (x : Reg) (kk : Byte) (s : State) : Outcome := .next (s.setReg x kk)

/-- STR x y (R91). -/
def execStr (x y : Reg) (s : State) : Outcome := .next (s.setReg x (s.reg y))

/-- ADDV x kk (R92). -/
def execAddv (x : Reg) (kk : Byte) (s : State) : Outcome := .next (s.addTo x kk)

/-- ADD x y: ADDV with `V[y]` as read at the start (R93). -/
def execAdd (x y : Reg) (s : State) : Outcome := .next (s.addTo x (s.reg y))

/-- OR x y (R94). -/
def execOr (x y : Reg) (s : State) : Outcome := .next (s.setReg x (s.reg x ||| s.reg y))

/-- AND x y (R95). -/
def execAnd (x y : Reg) (s : State) : Outcome := .next (s.setReg x (s.reg x &&& s.reg y))

/-- XOR x y (R96). -/
def execXor (x y : Reg) (s : State) : Outcome := .next (s.setReg x (s.reg x ^^^ s.reg y))

/-- SUB x y: `V[x] - V[y]` (R97). -/
def execSub (x y : Reg) (s : State) : Outcome := .next (s.subTo x (s.reg x) (s.reg y))

/-- SUBR x y: `V[y] - V[x]` (R99). -/
def execSubr (x y : Reg) (s : State) : Outcome := .next (s.subTo x (s.reg y) (s.reg x))

/-- RSH x (R98). -/
def execRsh (x : Reg) (s : State) : Outcome :=
  .next (s.shiftInPlace x (lowBitFlag (s.reg x)) (· >>> 1))

/-- LSH x (R100). -/
def execLsh (x : Reg) (s : State) : Outcome :=
  .next (s.shiftInPlace x (highBitFlag (s.reg x)) (· <<< 1))

end Sys2Proof.Machine
end

