-- ==== Sys2Proof/Machine/Random.lean ====
section
/-! DEFINITION. The meaning of RND (42_random.md). -/

namespace Sys2Proof.Machine

/-- RND x kk: the tick's random byte under the mask (R110). The byte is an input, free unless the schedule gives it. -/
def execRnd (x : Reg) (kk : Byte) (s : State) : Outcome := .next (s.setReg x (s.input.rnd &&& kk))

end Sys2Proof.Machine
end

