-- ==== Sys2Proof/Machine/Timers.lean ====
section
/-! DEFINITION. The meanings of STRD, STDR and STRS (45_timers.md).
UNVERIFIED: the moves are the spec's D18, and which mnemonic reads and which writes its D22 (log entry 10); unsafe. -/

namespace Sys2Proof.Machine

/-- STRD x: `V[x] <- DT` (R145). -/
def execStrd (x : Reg) (s : State) : Outcome := .next (s.setReg x s.dt)

/-- STDR x: `DT <- V[x]` (R146). -/
def execStdr (x : Reg) (s : State) : Outcome := .next (s.setDt (s.reg x))

/-- STRS x: `ST <- V[x]` (R147). -/
def execStrs (x : Reg) (s : State) : Outcome := .next (s.setSt (s.reg x))

end Sys2Proof.Machine
end

