-- ==== Sys2Proof/Machine/Dispatch.lean ====
section
/-! DEFINITION. The dispatch: one arm per constructor of Instr, in the order of spec/opcode_table.json (30_encoding.md R52). -/

namespace Sys2Proof.Machine

def exec (i : Instr) (s : State) : Host.Outcome State Fault Refusal :=
  match i with
  | .ext => Sys2Proof.Machine.execExt s
  | .cld => Sys2Proof.Machine.execCld s
  | .ret => Sys2Proof.Machine.execRet s
  | .jmp nnn => Sys2Proof.Machine.execJmp nnn s
  | .cll nnn => Sys2Proof.Machine.execCll nnn s
  | .sev x kk => Sys2Proof.Machine.execSev x kk s
  | .snev x kk => Sys2Proof.Machine.execSnev x kk s
  | .ser x y => Sys2Proof.Machine.execSer x y s
  | .stv x kk => Sys2Proof.Machine.execStv x kk s
  | .addv x kk => Sys2Proof.Machine.execAddv x kk s
  | .str x y => Sys2Proof.Machine.execStr x y s
  | .or x y => Sys2Proof.Machine.execOr x y s
  | .and x y => Sys2Proof.Machine.execAnd x y s
  | .xor x y => Sys2Proof.Machine.execXor x y s
  | .add x y => Sys2Proof.Machine.execAdd x y s
  | .sub x y => Sys2Proof.Machine.execSub x y s
  | .rsh x => Sys2Proof.Machine.execRsh x s
  | .subr x y => Sys2Proof.Machine.execSubr x y s
  | .lsh x => Sys2Proof.Machine.execLsh x s
  | .sner x y => Sys2Proof.Machine.execSner x y s
  | .sti nnn => Sys2Proof.Machine.execSti nnn s
  | .jmpr nnn => Sys2Proof.Machine.execJmpr nnn s
  | .rnd x kk => Sys2Proof.Machine.execRnd x kk s
  | .drw x y d => Sys2Proof.Machine.execDrw x y d s
  | .sep x => Sys2Proof.Machine.execSep x s
  | .senp x => Sys2Proof.Machine.execSenp x s
  | .strd x => Sys2Proof.Machine.execStrd x s
  | .wtp x => Sys2Proof.Machine.execWtp x s
  | .stdr x => Sys2Proof.Machine.execStdr x s
  | .strs x => Sys2Proof.Machine.execStrs x s
  | .addi x => Sys2Proof.Machine.execAddi x s
  | .stis x => Sys2Proof.Machine.execStis x s
  | .bcd x => Sys2Proof.Machine.execBcd x s
  | .ctr x => Sys2Proof.Machine.execCtr x s
  | .cfr x => Sys2Proof.Machine.execCfr x s

end Sys2Proof.Machine
end

