-- ==== Sys2Proof/Machine/Tick.lean ====
section
/-! DEFINITION. The agents of 00_scope.md section 2: one tick of the engine (fetch, decode, execute: 30_encoding.md R50 to R52), and what the host's other acts do. -/

namespace Sys2Proof.Machine

/-- The fetch: the big-endian word at `pc`, or the fatal condition when `pc` or `pc + 1` is above 4095 (20_memory.md R33).
UNVERIFIED: an odd `pc` is fetched like any other, D6 (log entry 24). -/
def State.fetch (s : State) : Except Fatal Word :=
  match firstOutside s.pc.toNat 2 with
  | some first => .error (.memoryOutOfRange (BitVec.ofNat 16 first) s.pc)
  | none => .ok (s.wordAt s.pc.toNat)

/-- The advance of the fetch, before decode and before any side effect; the tick continues unless something says otherwise (30_encoding.md R50). -/
def State.advance (s : State) : State := { s with pc := s.pc + 2, report := some .continued }

/-- Run a fetched word found at `a`: decode, then execute; an unrecognised word is fatal (30_encoding.md R52). -/
def runWord (w : Word) (a : Addr) (s : State) : Outcome :=
  match decode w with
  | .ok i => exec i s
  | .error _ => .next (s.raise (.invalidInstruction w a))

/-- One fetch-decode-execute cycle (00_scope.md R2). A fatal fetch does not advance `pc` (30_encoding.md R50). -/
def cycle (s : State) : Outcome :=
  match s.fetch with
  | .error f => .next (s.raise f)
  | .ok w => runWord w s.pc s.advance

/-- A tick request: the inputs are sampled and one cycle runs; while the `FAULT` latch is set it is ignored (60_exceptions.md R161). -/
def tick (inp : TickInput) (s : State) : Outcome :=
  match s.fault with
  | some _ => .next s
  | none => cycle { s with input := inp }

/-- The inputs of a tick the schedule does not describe: free values (log entry 3). -/
def freeInput (n : Nat) : TickInput := ⟨Config.freeKeys n, Config.freeRnd n, Config.freeSink n⟩

/-- The tick of an empty schedule: a free number of TimerTick steps, then a tick with free inputs (45_timers.md R148, 70_reset_and_hazards.md R185). -/
def freeTick (s : State) : Outcome :=
  tick (freeInput s.freeIx)
    { s.timerTicks (Config.freeTimerSteps s.freeIx) with freeIx := s.freeIx + 1 }

/-- The host resets the machine: every piece of engine state to its reset value (70_reset_and_hazards.md R180). What the
display has received, the rest of the schedule and the free-value counter are outside the machine and stay. -/
def State.hostReset (s : State) : State :=
  { State.reset with display := s.display, host := s.host, freeIx := s.freeIx }

/-- Whether a program image fits: its last word at or below address 4094 (70_reset_and_hazards.md R184). -/
def imageFits (image : List Word) : Bool :=
  decide (Config.programStart.toNat + 2 * image.length ≤ Config.memSize)

/-- The loader writes the image from PROGRAM_START on, big-endian, at consecutive even addresses (70_reset_and_hazards.md R184). -/
def State.loadImage (s : State) (image : List Word) : State :=
  s.storeBytes Config.programStart.toNat (bytesOfWords image)

/-- The act `load`: before the first tick only (70_reset_and_hazards.md R186), and only an image that fits (R184). -/
def hostLoad (image : List Word) (s : State) : Outcome :=
  match s.report with
  | some _ => .fault .loadAfterFirstTick
  | none => if imageFits image then .next (s.loadImage image) else .fault .imageDoesNotFit

/-- Whether a host act is a tick request. -/
def HostAct.isTick : HostAct → Bool
  | .tick _ => true
  | .timerTick | .reset | .load _ => false

/-- Store a word big-endian at `pc`, where the next fetch reads it (20_memory.md R34); past address 4094 there is no place for it. -/
def State.placeWord (s : State) (w : Word) : State :=
  if s.pc.toNat + 1 < Config.memSize then s.storeBytes s.pc.toNat (bytesOfWords [w]) else s

end Sys2Proof.Machine
end

