-- ==== Sys2Proof/Machine/Step.lean ====
section
/-! DEFINITION. One step of the whole machine: the next act of the host's schedule, or a tick with free inputs when the schedule is empty. -/

namespace Sys2Proof.Machine

/-- One step. The schedule says which agent moves (00_scope.md section 2): the engine, TimerTick, or the host itself.
DESIGN CHOICE: log entry 26. -/
def step (s : State) : Host.Outcome State Fault Refusal :=
  match s.host with
  | [] => freeTick s
  | .tick inp :: rest => tick inp { s with host := rest }
  | .timerTick :: rest => .next { s with host := rest }.timerTick
  | .reset :: rest => .next { s with host := rest }.hostReset
  | .load image :: rest => hostLoad image { s with host := rest }

/-- `s` with a table word stored where the next step fetches it, the `FAULT` latch clear and a tick as the next act:
it stands for the loader's write (70_reset_and_hazards.md R184; log entry 23). -/
def State.withFetchWord (s : State) (nbits w : Nat) : State :=
  { s.placeWord (BitVec.ofNat 16 (w % 2 ^ nbits)) with
    fault := none
    host := s.host.dropWhile fun act => !act.isTick }

end Sys2Proof.Machine
end

