-- ==== Sys2Proof/Machine/Assembler.lean ====
section
/-! DEFINITION. The assembler's surface (30_encoding.md section 7, R62 to R66): source lines to a program image. It is toolchain, not hardware; its output is what the act `load` takes. -/

namespace Sys2Proof.Machine

/-- A source line, and a token of one. -/
abbrev Chars := List Char

/-- The spelling of a mnemonic (30_encoding.md R55). -/
def mnemonicName : Mnemonic → String
  | .ext => "EXT"
  | .cld => "CLD"
  | .ret => "RET"
  | .jmp => "JMP"
  | .cll => "CLL"
  | .sev => "SEV"
  | .snev => "SNEV"
  | .ser => "SER"
  | .stv => "STV"
  | .addv => "ADDV"
  | .str => "STR"
  | .or => "OR"
  | .and => "AND"
  | .xor => "XOR"
  | .add => "ADD"
  | .sub => "SUB"
  | .rsh => "RSH"
  | .subr => "SUBR"
  | .lsh => "LSH"
  | .sner => "SNER"
  | .sti => "STI"
  | .jmpr => "JMPR"
  | .rnd => "RND"
  | .drw => "DRW"
  | .sep => "SEP"
  | .senp => "SENP"
  | .strd => "STRD"
  | .wtp => "WTP"
  | .stdr => "STDR"
  | .strs => "STRS"
  | .addi => "ADDI"
  | .stis => "STIS"
  | .bcd => "BCD"
  | .ctr => "CTR"
  | .cfr => "CFR"

/-- The mnemonics of R55, in its order. -/
def allMnemonics : List Mnemonic :=
  [.ext, .cld, .ret, .jmp, .cll, .sev, .snev, .ser, .stv, .addv, .str, .or, .and, .xor, .add, .sub, .rsh, .subr] ++
  [.lsh, .sner, .sti, .jmpr, .rnd, .drw, .sep, .senp, .strd, .wtp, .stdr, .strs, .addi, .stis, .bcd, .ctr, .cfr]

/-- The mnemonic a token spells. DESIGN CHOICE: capitals only, the spelling of R55 (log entry 21). -/
def mnemonicOf (t : Chars) : Option Mnemonic :=
  allMnemonics.find? fun m => (mnemonicName m).toList == t

/-- Cut a line at white space (R62); `cur` is the token being read, backwards. -/
def tokensFrom (cur : Chars) : Chars → List Chars
  | [] => if cur.isEmpty then [] else [cur.reverse]
  | c :: cs =>
    if c.isWhitespace then (if cur.isEmpty then [] else [cur.reverse]) ++ tokensFrom [] cs
    else tokensFrom (c :: cur) cs

/-- The tokens of a line (R62). -/
def tokensOf (line : Chars) : List Chars := tokensFrom [] line

/-- The value of a hexadecimal digit. DESIGN CHOICE: both letter cases (log entry 21). -/
def hexDigit (c : Char) : Option Nat :=
  if c.isDigit then some (c.toNat - 48)
  else if 'A' ≤ c ∧ c ≤ 'F' then some (c.toNat - 55)
  else if 'a' ≤ c ∧ c ≤ 'f' then some (c.toNat - 87)
  else none

/-- The value of hexadecimal digits read after `acc`. -/
def hexFrom (acc : Nat) : Chars → Option Nat
  | [] => some acc
  | c :: cs => (hexDigit c).bind fun d => hexFrom (16 * acc + d) cs

/-- An operand: hexadecimal text with no prefix (R64). -/
def hexOf (t : Chars) : Option Nat := if t.isEmpty then none else hexFrom 0 t

/-- What is wrong with a line. -/
inductive LineError where
  /-- R64. -/
  | missingOperand
  /-- R64. -/
  | notHexadecimal
  /-- A `#` line that is not `#f <name>` (R62). -/
  | badDirective
  /-- R65. -/
  | nestedDefinition
  /-- R65. -/
  | redefinedName
  /-- Tokens after the last operand or name: not in the grammar of R62 (log entry 21; safe). -/
  | extraToken
  /-- An operand too large for its field: not in the source (91_not_in_source.md N12; log entry 21; safe). -/
  | operandTooLarge
  deriving DecidableEq, Repr

/-- An error of the assembler; a line's carries its number and its text (R64). -/
inductive AsmError where
  | atLine (number : Nat) (text : Chars) (why : LineError)
  /-- The image does not fit in Memory (70_reset_and_hazards.md R184). -/
  | imageTooLarge
  deriving DecidableEq, Repr

/-- What one line says (R62). -/
inductive Line where
  | ignored
  | openDefinition (name : Chars)
  | instruction (i : Instr)
  | reference (name : Chars)
  deriving DecidableEq, Repr

/-- The operands of a mnemonic, checked as numbers (R63, R64). -/
def instructionLine (m : Mnemonic) (operands : List Chars) : Except LineError Line :=
  if operands.length < m.shape.bounds.length then .error .missingOperand
  else if m.shape.bounds.length < operands.length then .error .extraToken
  else
    match operands.mapM hexOf with
    | none => .error .notHexadecimal
    | some values =>
      match (RawInstr.mk m values).toInstr with
      | some i => .ok (.instruction i)
      | none => .error .operandTooLarge

/-- Read one line: blank, comment, directive, instruction, or a name (R62, R66).
DESIGN CHOICE: a line is a comment when its first token begins with the marker, white space before it or not (log entry 32). -/
def readLine (line : Chars) : Except LineError Line :=
  match tokensOf line with
  | [] => .ok .ignored
  | first :: rest =>
    if first.take 2 = ['/', '/'] then .ok .ignored
    else if first.head? = some '#' then
      match rest with
      | [name] => if first = ['#', 'f'] then .ok (.openDefinition name) else .error .badDirective
      | _ => .error .badDirective
    else
      match mnemonicOf first with
      | some m => instructionLine m rest
      | none => if rest.isEmpty then .ok (.reference first) else .error .extraToken

/-- A place of the program image before resolution: a word, or a reference to a name (R66). -/
inductive Slot where
  | word (w : Word)
  | reference (name : Chars)
  deriving DecidableEq, Repr

/-- A definition: its name and its buffer (R65). -/
abbrev Definition := Chars × List Slot

/-- The assembler between two lines: the image so far, the closed definitions in source order, the open one. -/
structure AsmState where
  image : List Slot
  closed : List Definition
  current : Option Definition
  deriving DecidableEq, Repr

/-- Nothing read yet. -/
def AsmState.start : AsmState := ⟨[], [], none⟩

/-- Emit a word or a placeholder: into the buffer of the open definition, else into the image (R65, R66).
DEDUCED: a placeholder goes where "all emitted words" go (log entry 22). -/
def AsmState.emit (s : AsmState) (slot : Slot) : AsmState :=
  match s.current with
  | none => { s with image := s.image ++ [slot] }
  | some (name, buffer) => { s with current := some (name, buffer ++ [slot]) }

/-- Close the open definition, if there is one (R65). -/
def AsmState.close (s : AsmState) : AsmState :=
  { s with closed := s.closed ++ s.current.toList, current := none }

/-- Take one line (R62, R65, R66). RET also closes the open definition. -/
def AsmState.take (s : AsmState) : Line → Except LineError AsmState
  | .ignored => .ok s
  | .instruction i =>
    let s' := s.emit (.word (encode i))
    .ok (if i = .ret then s'.close else s')
  | .reference name => .ok (s.emit (.reference name))
  | .openDefinition name =>
    match s.current with
    | some _ => .error .nestedDefinition
    | none =>
      if s.closed.any (fun d => d.1 == name) then .error .redefinedName
      else .ok { s with current := some (name, []) }

/-- Take the lines in order, the first of them numbered `n` (R62). -/
def AsmState.takeLines (s : AsmState) (n : Nat) : List Chars → Except AsmError AsmState
  | [] => .ok s
  | line :: lines =>
    match (readLine line).bind s.take with
    | .ok s' => s'.takeLines (n + 1) lines
    | .error why => .error (.atLine n line why)

/-- Put a definition in its place among others by its key. -/
def insertDefinition (k : Nat) (d : Definition) : List (Nat × Definition) → List (Nat × Definition)
  | [] => [(k, d)]
  | (k', d') :: ds => if k ≤ k' then (k, d) :: (k', d') :: ds else (k', d') :: insertDefinition k d ds

/-- The order in which definitions are appended: the order of their keys, which are free for each source text (R65,
91_not_in_source.md N13), so that source order, name order and any other order may be the one.
DESIGN CHOICE: two assemblies of one text append in the same order (log entry 22). -/
def appendOrder (source : List Chars) (ds : List Definition) : List Definition :=
  ((ds.zipIdx.foldr fun (d, n) acc => insertDefinition (Config.definitionKey source n) d acc) []).map Prod.snd

/-- Where each definition starts when they are appended from address `at₀` on (R65). -/
def definitionStarts (at₀ : Nat) : List Definition → List (Chars × Nat)
  | [] => []
  | (name, buffer) :: ds => (name, at₀) :: definitionStarts (at₀ + 2 * buffer.length) ds

/-- The call that resolution writes for a name, if the name is defined (R66). -/
def callOf (starts : List (Chars × Nat)) (name : Chars) : Option Word :=
  (starts.find? fun p => p.1 == name).map fun p => encode (.cll (BitVec.ofNat 12 p.2))

/-- Resolve a place of the main text: a reference to a defined name becomes its call, an undefined one keeps the placeholder (R66). -/
def resolveSlot (starts : List (Chars × Nat)) : Slot → Word
  | .word w => w
  | .reference name => (callOf starts name).getD Config.placeholderWord

/-- A place of a definition's buffer as it was emitted: a reference is the placeholder (R66). -/
def emittedWord : Slot → Word
  | .word w => w
  | .reference _ => Config.placeholderWord

/-- The name a place refers to, if it is a reference. -/
def Slot.name? : Slot → Option Chars
  | .word _ => none
  | .reference name => some name

/-- Write a word at a place of the image, where the place and the word exist. -/
def patch (image : List Word) (site : Option Nat) (call : Option Word) : List Word :=
  match call, site with
  | some w, some k => image.set k w
  | some _, none | none, _ => image

/-- Patch for the references inside definitions, numbered from `n`: the call of a defined name is written at a free place, the
buffer's own placeholder, a place of the main text, or none (R66, 91_not_in_source.md N13; log entry 22). -/
def patchInside (source : List Chars) (starts : List (Chars × Nat)) (n : Nat) (image : List Word) :
    List Chars → List Word
  | [] => image
  | name :: names =>
    patchInside source starts (n + 1) (patch image (Config.patchedSite source n) (callOf starts name)) names

/-- The whole image: the main text resolved, the definitions, and what the references inside definitions patch (R65, R66).
DEDUCED: a definition still open after the last line is a definition like any other, since R65 appends "every definition's
words" (log entry 22). -/
def AsmState.resolve (source : List Chars) (s : AsmState) : List Word :=
  let defined := s.close.closed
  let ds := appendOrder source defined
  let starts := definitionStarts (Config.programStart.toNat + 2 * s.image.length) ds
  patchInside source starts 0
    (s.image.map (resolveSlot starts) ++ (ds.flatMap Prod.snd).map emittedWord)
    ((defined.flatMap Prod.snd).filterMap Slot.name?)

/-- Assemble source lines to a program image (30_encoding.md section 7). -/
def assemble (source : List Chars) : Except AsmError (List Word) :=
  match AsmState.start.takeLines 1 source with
  | .error e => .error e
  | .ok s =>
    if imageFits (AsmState.resolve source s) then .ok (AsmState.resolve source s) else .error .imageTooLarge

/-- A hexadecimal digit as the assembler reads it. -/
def hexChar (n : Nat) : Char := "0123456789ABCDEF".toList.getD n '0'

/-- A number as `k` hexadecimal digits. -/
def hexChars : Nat → Nat → Chars
  | 0, _ => []
  | k + 1, n => hexChars k (n / 16) ++ [hexChar (n % 16)]

/-- How many digits an operand of each bound is written with. -/
def digitsFor (bound : Nat) : Nat := if bound = 16 then 1 else if bound = 256 then 2 else 3

/-- The source line of an instruction (R62 to R64). -/
def sourceLine (i : Instr) : Chars :=
  (mnemonicName i.mnemonic).toList ++
    (i.operands.zip i.mnemonic.shape.bounds).flatMap fun (v, b) => ' ' :: hexChars (digitsFor b) v

end Sys2Proof.Machine
end

