-- ==== Sys2Proof/Safety.lean ====
section
/-! DEFINITION. The terms in which claims are made: what a step leaves unchanged, the invariant of the machine, and how a run ends (70_reset_and_hazards.md R187). -/

namespace Sys2Proof.Machine

/-- What a step is allowed to change; everything not named here it leaves as it was. -/
structure Changes where
  regs : List Reg := []
  i : Bool := false
  pc : Bool := false
  stack : Bool := false
  timers : Bool := false
  memory : Bool := false
  latch : Bool := false
  display : Bool := false
  world : Bool := false
  deriving DecidableEq, Repr

/-- `t` differs from `s` only in what `c` names. Memory is compared byte by byte at every address; `latch` is the
`FAULT` latch and the tick's report; `world` is the sampled inputs, the schedule and the free-value counter. -/
def KeepsAllBut (c : Changes) (s t : State) : Prop :=
  (∀ z : Reg, z ∉ c.regs → t.reg z = s.reg z) ∧
  (c.i = false → t.i = s.i) ∧
  (c.pc = false → t.pc = s.pc) ∧
  (c.stack = false → t.sp = s.sp ∧ t.stack = s.stack) ∧
  (c.timers = false → t.dt = s.dt ∧ t.st = s.st) ∧
  (c.memory = false → ∀ a : Nat, t.byteAt a = s.byteAt a) ∧
  (c.latch = false → t.fault = s.fault ∧ t.report = s.report) ∧
  (c.display = false → t.display = s.display) ∧
  (c.world = false → t.input = s.input ∧ t.host = s.host ∧ t.freeIx = s.freeIx)

/-- The invariant of the machine: memory in its canonical form and inside the address space (20_memory.md R32), `pc` at
most 0x10FE (10_state.md R16), every stack entry at most 4096 (the highest `a + 2`), and the latch set exactly when the
last tick was fatal (60_exceptions.md R161). -/
def MachineInv (s : State) : Prop :=
  s.mem.wf ∧ s.pc.toNat ≤ 0x10FE ∧ (∀ k : Fin 16, s.stack[k].toNat ≤ 4096) ∧
  (s.report = some .fatal ↔ s.fault ≠ none)

/-- `pc` and every stack entry in use are even, what 70_reset_and_hazards.md R190 asks of a program. -/
def EvenAddresses (s : State) : Prop :=
  s.pc.toNat % 2 = 0 ∧ ∀ k : Fin 16, k.val < s.sp.val → s.stack[k].toNat % 2 = 0

/-- The target an instruction would load is even: the obligation of 70_reset_and_hazards.md R190 on JMP, CLL and JMPR. -/
def EvenTarget (i : Instr) (s : State) : Prop :=
  match i with
  | .jmp nnn | .cll nnn => nnn.toNat % 2 = 0
  | .jmpr nnn => (nnn.toNat + (s.reg 0).toNat) % 2 = 0
  | _ => True

/-- The instruction that the next tick of `s` runs, where the fetch and the decoder give one (30_encoding.md R50, R52). -/
def NextInstr (s : State) (i : Instr) : Prop :=
  s.fault = none ∧ s.pc.toNat < 4095 ∧ decode (s.wordAt s.pc.toNat) = .ok i

/-- The state in which the instruction at `pc` executes: inputs sampled, `pc` two further, the tick continuing (30_encoding.md R50). -/
def State.fetched (s : State) (inp : TickInput) : State :=
  { s with input := inp, pc := s.pc + 2, report := some .continued }

/-- `n` steps one after another, to the first that does not answer a next state. -/
def stepMany : Nat → State → Outcome
  | 0, s => .next s
  | n + 1, s =>
    match step s with
    | .next t => stepMany n t
    | .fault f => .fault f
    | .refused r => .refused r

/-- Run calls one after another, each from the state the last left; the states' `pc` is what the calls set it to. -/
def callsFrom (s : State) : List Addr12 → Option State
  | [] => some s
  | nnn :: rest =>
    match exec (.cll nnn) s with
    | .next t => callsFrom t rest
    | _ => none

/-- The fatal condition an instruction raises, and when: the table of 60_exceptions.md R155 and R164, less the fetch and the decode. -/
def raises (i : Instr) (s : State) : Option Fatal :=
  let a := s.pc - 2
  let outside (last : Nat) : Option Fatal :=
    if s.i.toNat + last ≤ 4095 then none
    else some (.memoryOutOfRange (if s.i.toNat < 4096 then 4096 else s.i) a)
  match i with
  | .cll _ => if s.sp.val = 16 then some (.stackOverflow a) else none
  | .ret => if s.sp.val = 0 then some (.stackUnderflow a) else none
  | .sep x | .senp x => if 15 < (s.reg x).toNat then some (.invalidKeyIndex (s.reg x) a) else none
  | .bcd _ => outside 2
  | .ctr x | .cfr x => outside x.val
  | .drw _ _ d => if d.val = 0 then none else outside (d.val - 1)
  | _ => none

/-- The register an instruction names as its destination (10_state.md R10). -/
def destination : Instr → Option Reg
  | .stv x _ | .addv x _ | .str x _ | .or x _ | .and x _ | .xor x _ | .add x _ | .sub x _
  | .subr x _ | .rsh x | .lsh x | .rnd x _ | .strd x | .wtp x => some x
  | _ => none

/-- How a run ends (70_reset_and_hazards.md R187). An abnormal end gives no state: "its state is not a result". -/
inductive RunEnd where
  /-- A tick reported `continue = false`. -/
  | normal (s : State)
  /-- A tick was fatal. -/
  | abnormal (f : Fatal)
  /-- The host stopped asking for steps. -/
  | cut (s : State)
  /-- An act of the host broke its obligations (R184, R186). -/
  | hostError (f : Fault)
  | refused (r : Refusal)
  deriving DecidableEq, Repr

/-- A run of at most `fuel` steps, to its first end (70_reset_and_hazards.md R187, R196).
DESIGN CHOICE: an act `reset` in the middle is no end of the run, which goes on from the reset state (log entry 33). -/
def runFor : Nat → State → RunEnd
  | 0, s => .cut s
  | fuel + 1, s =>
    match step s with
    | .fault f => .hostError f
    | .refused r => .refused r
    | .next t =>
      match t.fault with
      | some f => .abnormal f
      | none => if t.report = some .halted then .normal t else runFor fuel t

end Sys2Proof.Machine
end

