-- ==== Sys2Proof/Certificates/Slice0/Obligations.lean ====
section
/-! DEFINITION. The statements for the provers. Each says which rule of spec/ it formalises; a statement that rests on a decision of the spec (D<n> of 92_eei_decisions.md) or on a choice of this model names it and its log entry. -/

open Sys2Proof Sys2Proof.Machine

/-! ### Reset and the invariant -/

/-- What reset leaves, 10_state.md R24. The zeros are the spec's decision D10 and PROGRAM_START and the glyph bytes its
D1 and D2 (log entries 1, 2, 6): nothing is said of their values here. -/
def Obligations.ResetLeavesTheStatedValues : Prop :=
  State.reset.pc = Config.programStart ∧
  (∀ a : Nat, a < 80 → State.reset.byteAt a = Config.glyphTable.getD a 0) ∧
  (∀ a : Nat, 80 ≤ a → State.reset.byteAt a = 0) ∧
  (∀ x : Reg, State.reset.reg x = 0) ∧ State.reset.i = 0 ∧ State.reset.sp = 0 ∧
  (∀ k : Fin 16, State.reset.stack[k] = 0) ∧ State.reset.dt = 0 ∧ State.reset.st = 0 ∧
  State.reset.fault = none

/-- The invariant and the evenness of 70_reset_and_hazards.md R190 hold at reset. -/
def Obligations.ResetMeetsTheInvariant : Prop :=
  MachineInv State.reset ∧ EvenAddresses State.reset

/-- Every step from a state that meets the invariant leads to one that does: memory canonical and inside the address space
(20_memory.md R32), `pc` at most 0x10FE (10_state.md R16), stack entries at most 4096, the `FAULT` latch set exactly after a
fatal tick (60_exceptions.md R161). -/
def Obligations.EveryStepKeepsTheInvariant : Prop :=
  ∀ s t : State, MachineInv s → step s = .next t → MachineInv t

/-- 70_reset_and_hazards.md R190: `pc` stays even as long as every JMP and CLL target and every JMPR sum is even. -/
def Obligations.ProgramCounterStaysEven : Prop :=
  ∀ s t : State, EvenAddresses s → (∀ i, NextInstr s i → EvenTarget i s) → step s = .next t →
    EvenAddresses t

/-! ### Fetch, decode, encode -/

/-- A step runs the decoded instruction, 30_encoding.md R50 and R52: where the next act is a tick (or the schedule is empty,
and the inputs and the TimerTick steps before it are free, log entry 3) and the word at `pc` decodes to `i`, the step is `exec i` with `pc` already advanced by 2. -/
def Obligations.StepRunsTheDecodedInstruction : Prop :=
  (∀ (s : State) (inp : TickInput) (rest : List HostAct) (i : Instr),
    s.host = .tick inp :: rest → NextInstr s i →
    step s = exec i { s with
      host := rest, input := inp, pc := s.pc + 2, report := some .continued }) ∧
  (∀ (s : State) (i : Instr), s.host = [] → NextInstr s i →
    step s = exec i { s with
      dt := decrementBy s.dt (Config.freeTimerSteps s.freeIx)
      st := decrementBy s.st (Config.freeTimerSteps s.freeIx)
      freeIx := s.freeIx + 1
      input := ⟨Config.freeKeys s.freeIx, Config.freeRnd s.freeIx, Config.freeSink s.freeIx⟩
      pc := s.pc + 2
      report := some .continued })

/-- 30_encoding.md R52 and R58, 60_exceptions.md R156: a word that no row of the table selects is the fatal
INVALID_INSTRUCTION with the word and its address, `pc` advanced, nothing of the word executed. The numbers of the table are
D3 (log entry 4), the state after a fatal is D9 (log entry 12). -/
def Obligations.UnrecognisedWordIsFatal : Prop :=
  ∀ (s : State) (inp : TickInput) (rest : List HostAct),
    s.host = .tick inp :: rest → s.fault = none → s.pc.toNat < 4095 →
    (∀ r ∈ opcodeTable, s.wordAt s.pc.toNat &&& r.mask ≠ r.bits) →
    ∃ t, step s = .next t ∧
      t.fault = some (.invalidInstruction (s.wordAt s.pc.toNat) s.pc) ∧
      t.report = some .fatal ∧ t.pc = s.pc + 2 ∧
      KeepsAllBut { pc := true, latch := true, world := true } s t

/-- 20_memory.md R33 (derived there) and 30_encoding.md R50: a fetch above address 4094 is the fatal MEMORY_OUT_OF_RANGE
with the first address above 4095, and `pc` is not advanced (D9, log entry 12). -/
def Obligations.FetchAboveMemoryIsFatal : Prop :=
  ∀ (s : State) (inp : TickInput) (rest : List HostAct),
    s.host = .tick inp :: rest → s.fault = none → 4095 ≤ s.pc.toNat →
    ∃ t, step s = .next t ∧
      t.fault = some (.memoryOutOfRange (if s.pc.toNat = 4095 then 4096 else s.pc) s.pc) ∧
      t.report = some .fatal ∧
      KeepsAllBut { latch := true, world := true } s t

/-- Words written out from the patterns of 30_encoding.md R55, one or more of each family, and the instruction each stands
for. A sanity statement; the numbers are D3 (log entry 4). -/
def Obligations.SampleWordsDecode : Prop :=
  decode 0x0000 = .ok .ext ∧ decode 0x00EE = .ok .ret ∧ decode 0x1234 = .ok (.jmp 0x234) ∧
  decode 0x2300 = .ok (.cll 0x300) ∧ decode 0x3F01 = .ok (.sev 15 0x01) ∧
  decode 0x71FF = .ok (.addv 1 0xFF) ∧ decode 0x8F14 = .ok (.add 15 1) ∧
  decode 0x8017 = .ok (.subr 0 1) ∧ decode 0xC20F = .ok (.rnd 2 0x0F) ∧
  decode 0xA300 = .ok (.sti 0x300) ∧ decode 0xF265 = .ok (.cfr 2) ∧
  decode 0xD122 = .ok (.drw 1 2 2) ∧ decode 0xE0A1 = .ok (.senp 0) ∧
  decode 0xF00A = .ok (.wtp 0) ∧ decode 0xF315 = .ok (.stdr 3) ∧
  decode 0x5011 = .error (.invalidInstruction 0x5011) ∧
  decode 0x0123 = .error (.invalidInstruction 0x0123)

/-- 30_encoding.md R52: the patterns are disjoint, so no word is selected by two rows (derived there; numbers D3, log entry 4). -/
def Obligations.NoWordSelectsTwoRows : Prop :=
  ∀ w : Word, ∀ r ∈ opcodeTable, ∀ r' ∈ opcodeTable,
    w &&& r.mask = r.bits → w &&& r'.mask = r'.bits → r = r'

/-- 30_encoding.md R55 and R58: the decoder gives a word the instruction of the row that selects it, and rejects exactly the
words that no row selects (numbers D3, D4: log entry 4). -/
def Obligations.DecoderAgreesWithTheTable : Prop :=
  ∀ w : Word,
    (∀ i, decode w = .ok i →
      ∃ r ∈ opcodeTable, r.mnemonic = i.mnemonic ∧ w &&& r.mask = r.bits) ∧
    ((∀ r ∈ opcodeTable, w &&& r.mask ≠ r.bits) ↔ decode w = .error (.invalidInstruction w))

/-- Decoding the encoding of any instruction gives it back, with every operand at every value (30_encoding.md R53 to R55, R63). -/
def Obligations.DecodeOfEncode : Prop :=
  ∀ i : Instr, decode (encode i) = .ok i

/-- The other direction: a decoded word is the encoding of its instruction, but for the `y` nibble of RSH and LSH, which the
decoder ignores (30_encoding.md R56; D4, log entry 4). -/
def Obligations.EncodeOfDecode : Prop :=
  ∀ (w : Word) (i : Instr), decode w = .ok i →
    if i.mnemonic = .rsh ∨ i.mnemonic = .lsh then encode i = w &&& 0xFF0F else encode i = w

/-- Every instruction is well formed, and reading its operand numbers gives it back (30_encoding.md R63). -/
def Obligations.EveryInstructionIsWellFormed : Prop :=
  ∀ i : Instr, i.wf = true ∧ i.raw.toInstr = some i

/-! ### Loads and arithmetic -/

/-- 41_load_arithmetic.md R90 and R91: STV loads the immediate, STR another register's value; nothing else changes. -/
def Obligations.LoadsWriteTheirRegister : Prop :=
  (∀ (x : Reg) (kk : Byte) (s : State), ∃ t, exec (.stv x kk) s = .next t ∧
    t.reg x = kk ∧ KeepsAllBut { regs := [x] } s t) ∧
  (∀ (x y : Reg) (s : State), ∃ t, exec (.str x y) s = .next t ∧
    t.reg x = s.reg y ∧ KeepsAllBut { regs := [x] } s t)

/-- 41_load_arithmetic.md R94 to R96, bit by bit; no flag is written, which is the spec's D14 (log entry 16). -/
def Obligations.BitwiseOperations : Prop :=
  ∀ (x y : Reg) (s : State),
    (∃ t, exec (.or x y) s = .next t ∧ KeepsAllBut { regs := [x] } s t ∧
      ∀ k < 8, (t.reg x).getLsbD k = ((s.reg x).getLsbD k || (s.reg y).getLsbD k)) ∧
    (∃ t, exec (.and x y) s = .next t ∧ KeepsAllBut { regs := [x] } s t ∧
      ∀ k < 8, (t.reg x).getLsbD k = ((s.reg x).getLsbD k && (s.reg y).getLsbD k)) ∧
    (∃ t, exec (.xor x y) s = .next t ∧ KeepsAllBut { regs := [x] } s t ∧
      ∀ k < 8, (t.reg x).getLsbD k = ((s.reg x).getLsbD k ^^ (s.reg y).getLsbD k))

/-- 41_load_arithmetic.md R92, R93 and R101: the sum with the carry in register 15 is the true sum; with register 15 as
destination the carry stays and the sum is lost, which is the spec's D12 (log entry 14). -/
def Obligations.AdditionsCarry : Prop :=
  (∀ (x : Reg) (kk : Byte) (s : State), ∃ t, exec (.addv x kk) s = .next t ∧
    KeepsAllBut { regs := [x, flagReg] } s t ∧
    (x ≠ flagReg → (t.reg x).toNat + 256 * (t.reg flagReg).toNat = (s.reg x).toNat + kk.toNat) ∧
    (t.reg flagReg).toNat = ((s.reg x).toNat + kk.toNat) / 256) ∧
  (∀ (x y : Reg) (s : State), ∃ t, exec (.add x y) s = .next t ∧
    KeepsAllBut { regs := [x, flagReg] } s t ∧
    (x ≠ flagReg →
      (t.reg x).toNat + 256 * (t.reg flagReg).toNat = (s.reg x).toNat + (s.reg y).toNat) ∧
    (t.reg flagReg).toNat = ((s.reg x).toNat + (s.reg y).toNat) / 256)

/-- 41_load_arithmetic.md R97, R99 and R101: register 15 is 1 exactly when no borrow occurred and the result is the true
difference, plus 256 after a borrow; with register 15 as destination the flag stays (D12, log entry 14). -/
def Obligations.SubtractionsReportNotBorrow : Prop :=
  ∀ (x y : Reg) (s : State),
    (∃ t, exec (.sub x y) s = .next t ∧ KeepsAllBut { regs := [x, flagReg] } s t ∧
      t.reg flagReg = (if s.reg y ≤ s.reg x then 1 else 0) ∧
      (x ≠ flagReg → (t.reg x).toNat + (s.reg y).toNat =
        (s.reg x).toNat + 256 * (1 - (t.reg flagReg).toNat))) ∧
    (∃ t, exec (.subr x y) s = .next t ∧ KeepsAllBut { regs := [x, flagReg] } s t ∧
      t.reg flagReg = (if s.reg x ≤ s.reg y then 1 else 0) ∧
      (x ≠ flagReg → (t.reg x).toNat + (s.reg x).toNat =
        (s.reg y).toNat + 256 * (1 - (t.reg flagReg).toNat)))

/-- 41_load_arithmetic.md R98 and R100: a shift moves one bit out into register 15 and a zero in; on register 15 itself RSH
leaves 0 and LSH leaves 2 or 0, which is the spec's D13 (log entry 14). -/
def Obligations.ShiftsMoveOneBit : Prop :=
  ∀ (x : Reg) (s : State),
    (∃ t, exec (.rsh x) s = .next t ∧ KeepsAllBut { regs := [x, flagReg] } s t ∧
      (x ≠ flagReg → 2 * (t.reg x).toNat + (t.reg flagReg).toNat = (s.reg x).toNat ∧
        (t.reg flagReg).toNat ≤ 1) ∧
      (x = flagReg → t.reg flagReg = 0)) ∧
    (∃ t, exec (.lsh x) s = .next t ∧ KeepsAllBut { regs := [x, flagReg] } s t ∧
      (x ≠ flagReg → (t.reg x).toNat + 256 * (t.reg flagReg).toNat = 2 * (s.reg x).toNat) ∧
      (x = flagReg → t.reg flagReg = if 128 ≤ (s.reg x).toNat then 2 else 0))

/-- 42_random.md R110: the tick's random byte under the mask; where the mask has a 0 the result has a 0, and no flag is
written. The byte is an input of the tick (D19, log entry 3), so this holds for every value of it. -/
def Obligations.RandomByteUnderMask : Prop :=
  ∀ (x : Reg) (kk : Byte) (s : State), ∃ t, exec (.rnd x kk) s = .next t ∧
    t.reg x = s.input.rnd &&& kk ∧ t.reg x &&& ~~~kk = 0 ∧ KeepsAllBut { regs := [x] } s t

/-! ### Control flow -/

/-- 40_control_flow.md R74 to R77: a skip adds 2 to `pc` exactly when its condition holds, and writes `pc` only. -/
def Obligations.RegisterSkips : Prop :=
  (∀ (x : Reg) (kk : Byte) (s : State),
    (∃ t, exec (.sev x kk) s = .next t ∧ KeepsAllBut { pc := true } s t ∧
      t.pc = if s.reg x = kk then s.pc + 2 else s.pc) ∧
    (∃ t, exec (.snev x kk) s = .next t ∧ KeepsAllBut { pc := true } s t ∧
      t.pc = if s.reg x = kk then s.pc else s.pc + 2)) ∧
  (∀ (x y : Reg) (s : State),
    (∃ t, exec (.ser x y) s = .next t ∧ KeepsAllBut { pc := true } s t ∧
      t.pc = if s.reg x = s.reg y then s.pc + 2 else s.pc) ∧
    (∃ t, exec (.sner x y) s = .next t ∧ KeepsAllBut { pc := true } s t ∧
      t.pc = if s.reg x = s.reg y then s.pc else s.pc + 2))

/-- 40_control_flow.md R72: JMP accepts every 12-bit target and writes `pc` only; a jump to itself is an endless loop,
since each tick that runs it continues and the next runs it again; after a jump to 0xFFF the next fetch is fatal. -/
def Obligations.JumpLoadsItsTarget : Prop :=
  (∀ (nnn : Addr12) (s : State), ∃ t, exec (.jmp nnn) s = .next t ∧
    t.pc.toNat = nnn.toNat ∧ KeepsAllBut { pc := true } s t) ∧
  (∀ (nnn : Addr12) (s : State) (inp : TickInput) (rest : List HostAct),
    s.host = .tick inp :: rest → NextInstr s (.jmp nnn) → s.pc.toNat = nnn.toNat →
    ∃ t, step s = .next t ∧ t.pc = s.pc ∧ t.report = some .continued ∧ NextInstr t (.jmp nnn)) ∧
  (∀ (s t : State) (inp : TickInput) (rest : List HostAct), s.fault = none →
    s.host = .tick inp :: rest → exec (.jmp 0xFFF) s = .next t →
    ∃ u, step t = .next u ∧ u.report = some .fatal)

/-- 40_control_flow.md R78: the sum `nnn + V[0]` is kept whole, up to 0x10FE (D28, log entry 13), and only `pc` is written. -/
def Obligations.IndexedJumpKeepsTheWholeSum : Prop :=
  ∀ (nnn : Addr12) (s : State), ∃ t, exec (.jmpr nnn) s = .next t ∧
    t.pc.toNat = nnn.toNat + (s.reg 0).toNat ∧ KeepsAllBut { pc := true } s t

/-- 40_control_flow.md R73: with room CLL pushes the advanced `pc` on top, leaves the other entries and jumps; with 16 entries
in use it is the fatal STACK_OVERFLOW, raised before anything else, so nothing is pushed and `pc` is not changed. -/
def Obligations.CallPushesAndJumps : Prop :=
  ∀ (nnn : Addr12) (s : State),
    (s.sp.val < 16 → ∃ t, exec (.cll nnn) s = .next t ∧
      t.sp.val = s.sp.val + 1 ∧ t.pc.toNat = nnn.toNat ∧
      (∀ k : Fin 16, t.stack[k] = if k.val = s.sp.val then s.pc else s.stack[k]) ∧
      KeepsAllBut { pc := true, stack := true } s t) ∧
    (s.sp.val = 16 → ∃ t, exec (.cll nnn) s = .next t ∧ t.report = some .fatal ∧
      (∃ a, t.fault = some (.stackOverflow a)) ∧ KeepsAllBut { latch := true } s t)

/-- 40_control_flow.md R71: RET takes the top entry into `pc` as it is and leaves it as a stale value; on the empty stack it is
the fatal STACK_UNDERFLOW, raised before anything else, so nothing is popped. -/
def Obligations.ReturnPopsTheStack : Prop :=
  ∀ s : State,
    (∀ k : Fin 16, s.sp.val = k.val + 1 → ∃ t, exec .ret s = .next t ∧
      t.sp.val = k.val ∧ t.pc = s.stack[k] ∧ t.stack = s.stack ∧
      KeepsAllBut { pc := true, stack := true } s t) ∧
    (s.sp.val = 0 → ∃ t, exec .ret s = .next t ∧ t.report = some .fatal ∧
      (∃ a, t.fault = some (.stackUnderflow a)) ∧ KeepsAllBut { latch := true } s t)

/-- 40_control_flow.md R73 and R71 together (the property S8 of 95_test_vectors.md): a RET that finds the stack as a CLL left
it returns to the instruction after the call, with the stack pointer and the entries below as before the call. -/
def Obligations.ReturnComesBackAfterTheCall : Prop :=
  ∀ (nnn : Addr12) (s t u : State), s.sp.val < 16 → exec (.cll nnn) s = .next t →
    u.sp = t.sp → u.stack = t.stack →
    ∃ r, exec .ret u = .next r ∧ r.pc = s.pc ∧ r.sp = s.sp ∧
      (∀ k : Fin 16, k.val < s.sp.val → r.stack[k] = s.stack[k])

/-- The property S9 of 95_test_vectors.md: from an empty stack 16 nested calls succeed, and a 17th is fatal. -/
def Obligations.SixteenCallsThenOverflow : Prop :=
  ∀ (s : State) (targets : List Addr12) (nnn : Addr12), s.sp.val = 0 → s.fault = none →
    targets.length ≤ 16 →
    ∃ t, callsFrom s targets = some t ∧ t.fault = none ∧ t.sp.val = targets.length ∧
      (targets.length = 16 → ∃ u, exec (.cll nnn) t = .next u ∧
        u.fault = some (.stackOverflow (t.pc - 2)) ∧ u.sp = t.sp ∧ u.stack = t.stack)

/-- 40_control_flow.md R70: EXT reports `continue = false` and changes nothing else; no halted state is kept, so a later tick
runs the instruction at `pc` like any other (D20, log entry 17). -/
def Obligations.HaltReportsStop : Prop :=
  (∀ s : State, ∃ t, exec .ext s = .next t ∧ t.report = some .halted ∧ t.fault = s.fault ∧
    KeepsAllBut { latch := true } s t) ∧
  (∀ (s : State) (inp : TickInput) (rest : List HostAct) (i : Instr),
    s.report = some .halted → s.host = .tick inp :: rest → NextInstr s i →
    step s = step { s with report := none })

/-! ### Memory and the address register -/

/-- 43_memory_address.md R115: STI loads the address register, which it can never put out of the address space. -/
def Obligations.StiLoadsTheAddressRegister : Prop :=
  ∀ (nnn : Addr12) (s : State), ∃ t, exec (.sti nnn) s = .next t ∧
    t.i.toNat = nnn.toNat ∧ t.i.toNat ≤ 4095 ∧ KeepsAllBut { i := true } s t

/-- 43_memory_address.md R116: ADDI adds modulo 65536 and writes no flag, whatever the sum (D11 and D14, log entries 15, 16). -/
def Obligations.AddiWrapsWithoutAFlag : Prop :=
  ∀ (x : Reg) (s : State), ∃ t, exec (.addi x) s = .next t ∧
    t.i.toNat = (s.i.toNat + (s.reg x).toNat) % 65536 ∧ KeepsAllBut { i := true } s t

/-- 43_memory_address.md R117: STIS sets `I` to five times the register, for all 256 values (above 15: D27, log entry 13). -/
def Obligations.StisPointsAtTheGlyph : Prop :=
  ∀ (x : Reg) (s : State), ∃ t, exec (.stis x) s = .next t ∧
    t.i.toNat = 5 * (s.reg x).toNat ∧ KeepsAllBut { i := true } s t

/-- 43_memory_address.md R118: three decimal digits of the register, hundreds at `I`; every other byte as before; out of range
nothing is written (D26, log entry 12) and `I` never changes (D15, log entry 18). -/
def Obligations.DecimalDigitsStored : Prop :=
  ∀ (x : Reg) (s : State), s.mem.wf →
    (s.i.toNat + 2 ≤ 4095 → ∃ t, exec (.bcd x) s = .next t ∧
      100 * (t.byteAt s.i.toNat).toNat + 10 * (t.byteAt (s.i.toNat + 1)).toNat +
        (t.byteAt (s.i.toNat + 2)).toNat = (s.reg x).toNat ∧
      (t.byteAt (s.i.toNat + 1)).toNat ≤ 9 ∧ (t.byteAt (s.i.toNat + 2)).toNat ≤ 9 ∧
      (∀ a : Nat, (a < s.i.toNat ∨ s.i.toNat + 2 < a) → t.byteAt a = s.byteAt a) ∧
      KeepsAllBut { memory := true } s t) ∧
    (4095 < s.i.toNat + 2 → ∃ t, exec (.bcd x) s = .next t ∧
      t.fault = some (.memoryOutOfRange (if s.i.toNat < 4096 then 4096 else s.i) (s.pc - 2)) ∧
      t.report = some .fatal ∧ KeepsAllBut { latch := true } s t)

/-- 43_memory_address.md R119: registers 0 to `x` at `I` to `I + x`; every other byte as before; out of range nothing is
written (D26, log entry 12) and `I` never changes (D15, log entry 18). -/
def Obligations.RegistersCopiedToMemory : Prop :=
  ∀ (x : Reg) (s : State), s.mem.wf →
    (s.i.toNat + x.val ≤ 4095 → ∃ t, exec (.ctr x) s = .next t ∧
      (∀ k : Reg, k ≤ x → t.byteAt (s.i.toNat + k.val) = s.reg k) ∧
      (∀ a : Nat, (a < s.i.toNat ∨ s.i.toNat + x.val < a) → t.byteAt a = s.byteAt a) ∧
      KeepsAllBut { memory := true } s t) ∧
    (4095 < s.i.toNat + x.val → ∃ t, exec (.ctr x) s = .next t ∧
      t.fault = some (.memoryOutOfRange (if s.i.toNat < 4096 then 4096 else s.i) (s.pc - 2)) ∧
      t.report = some .fatal ∧ KeepsAllBut { latch := true } s t)

/-- 43_memory_address.md R120: memory at `I` to `I + x` in registers 0 to `x`, the registers above untouched; out of range no
register is written (D26, log entry 12) and `I` never changes (D15, log entry 18). -/
def Obligations.MemoryCopiedToRegisters : Prop :=
  ∀ (x : Reg) (s : State),
    (s.i.toNat + x.val ≤ 4095 → ∃ t, exec (.cfr x) s = .next t ∧
      (∀ k : Reg, t.reg k = if k ≤ x then s.byteAt (s.i.toNat + k.val) else s.reg k) ∧
      KeepsAllBut { regs := List.finRange 16 } s t) ∧
    (4095 < s.i.toNat + x.val → ∃ t, exec (.cfr x) s = .next t ∧
      t.fault = some (.memoryOutOfRange (if s.i.toNat < 4096 then 4096 else s.i) (s.pc - 2)) ∧
      t.report = some .fatal ∧ KeepsAllBut { latch := true } s t)

/-- The property S10 of 95_test_vectors.md: CTR x and then CFR x leave every register and `I` as they were. It rests on `I`
not changing (D15, log entry 18). -/
def Obligations.BlockTransferRoundTrip : Prop :=
  ∀ (x : Reg) (s t : State), s.mem.wf → s.i.toNat + x.val ≤ 4095 → exec (.ctr x) s = .next t →
    ∃ u, exec (.cfr x) t = .next u ∧ u.i = s.i ∧ (∀ k : Reg, u.reg k = s.reg k) ∧
      (∀ k : Reg, k ≤ x → u.byteAt (s.i.toNat + k.val) = s.reg k)

/-- 20_memory.md R30, R31: a store is read back and every other address reads as before; the canonical form is kept. -/
def Obligations.StoredByteIsReadBack : Prop :=
  ∀ (m : Memory) (a : Nat) (v : Byte), m.wf → a < 4096 →
    (m.write a v).wf ∧ (m.write a v).read a = v ∧ ∀ b : Nat, b ≠ a → (m.write a v).read b = m.read b

/-- 20_memory.md R34 and R42: two registers stored by CTR at the address of the next instruction are the word that the next
tick fetches and runs, the byte at the lower address its high half. -/
def Obligations.StoresAreSeenByTheFetch : Prop :=
  ∀ (x : Reg) (s t u : State) (inp : TickInput) (rest : List HostAct) (i : Instr),
    s.mem.wf → x ≠ 0 → s.i.toNat + x.val ≤ 4095 → exec (.ctr x) s = .next t →
    u.mem = t.mem → u.pc = s.i → u.fault = none → u.host = .tick inp :: rest →
    decode (s.reg 0 ++ s.reg 1) = .ok i →
    step u = exec i { u with host := rest, input := inp, pc := u.pc + 2, report := some .continued }

/-! ### Display and input -/

/-- 44_display_input.md R131: `d` rows from memory at `I` to the display, row `r` at vertical coordinate `V[y] + r`, not
reduced; register 15 is the OR of the answers. The flag and the absent sink are D16 (log entry 9); out of range no row is
sent (D26, log entry 12). -/
def Obligations.SpriteRowsSent : Prop :=
  ∀ (x y : Reg) (d : Rows) (s : State),
    ((d.val = 0 ∨ s.i.toNat + d.val ≤ 4096) → ∃ t, exec (.drw x y d) s = .next t ∧
      (∀ answers, s.input.sink = some answers → ∃ rows : List DisplayCmd,
        t.display = s.display ++ rows ∧ rows.length = d.val ∧
        (∀ r : Nat, r < d.val → ∃ cy : BitVec 9, cy.toNat = (s.reg y).toNat + r ∧
          rows[r]? = some (.drawRow (s.reg x) cy (s.byteAt (s.i.toNat + r)))) ∧
        t.reg flagReg = if ∃ r < d.val, answers.getLsbD r = true then 1 else 0) ∧
      (s.input.sink = none → t.display = s.display ∧ t.reg flagReg = 0) ∧
      KeepsAllBut { regs := [flagReg], display := true } s t) ∧
    (d.val ≠ 0 → 4096 < s.i.toNat + d.val → ∃ t, exec (.drw x y d) s = .next t ∧
      t.fault = some (.memoryOutOfRange (if s.i.toNat < 4096 then 4096 else s.i) (s.pc - 2)) ∧
      t.report = some .fatal ∧ KeepsAllBut { latch := true } s t)

/-- 44_display_input.md R132: CLD sends one `clear` and changes no engine state; a missing display ignores it (D16, log entry 9). -/
def Obligations.ClearSent : Prop :=
  ∀ s : State, ∃ t, exec .cld s = .next t ∧
    t.display = (if s.input.sink = none then s.display else s.display ++ [.clear]) ∧
    KeepsAllBut { display := true } s t

/-- 44_display_input.md R134 and R135, with a key state supplied: SEP skips when key `V[x]` is pressed, SENP when it is not,
and both write `pc` only; an index above 15 is the fatal INVALID_KEY_INDEX with the value, and never a skip. -/
def Obligations.KeySkips : Prop :=
  ∀ (x : Reg) (s : State) (keys : BitVec 16), s.input.keys = some keys →
    ((s.reg x).toNat ≤ 15 →
      (∃ t, exec (.sep x) s = .next t ∧ KeepsAllBut { pc := true } s t ∧
        t.pc = if keys.getLsbD (s.reg x).toNat then s.pc + 2 else s.pc) ∧
      (∃ t, exec (.senp x) s = .next t ∧ KeepsAllBut { pc := true } s t ∧
        t.pc = if keys.getLsbD (s.reg x).toNat then s.pc else s.pc + 2)) ∧
    (15 < (s.reg x).toNat → ∀ i ∈ [Instr.sep x, Instr.senp x], ∃ t, exec i s = .next t ∧
      (∃ a, t.fault = some (.invalidKeyIndex (s.reg x) a)) ∧ t.report = some .fatal ∧
      KeepsAllBut { latch := true } s t)

/-- 44_display_input.md R133: without a key state every key is up, so SEP never skips and SENP always does, and an index
above 15 is fatal all the same. The absent case is the spec's D17 (log entry 7). -/
def Obligations.KeysAreUpWhenAbsent : Prop :=
  ∀ (x : Reg) (s : State), s.input.keys = none →
    ((s.reg x).toNat ≤ 15 →
      (∃ t, exec (.sep x) s = .next t ∧ t.pc = s.pc ∧ KeepsAllBut {} s t) ∧
      (∃ t, exec (.senp x) s = .next t ∧ t.pc = s.pc + 2 ∧ KeepsAllBut { pc := true } s t)) ∧
    (15 < (s.reg x).toNat → ∀ i ∈ [Instr.sep x, Instr.senp x], ∃ t, exec i s = .next t ∧
      (∃ a, t.fault = some (.invalidKeyIndex (s.reg x) a)) ∧ t.report = some .fatal ∧
      KeepsAllBut { latch := true } s t)

/-- 44_display_input.md R133 and R136: with a key pressed WTP captures the lowest pressed index, with none (or no key state) it
goes back to its own address. The lowest index and the absent state are D17 (log entries 7, 8). -/
def Obligations.KeyWaitCapturesTheLowest : Prop :=
  ∀ (x : Reg) (s : State),
    (∀ k : Nat, k < 16 → (∃ keys, s.input.keys = some keys ∧ keys.getLsbD k = true ∧
        ∀ j < k, keys.getLsbD j = false) →
      ∃ t, exec (.wtp x) s = .next t ∧ (t.reg x).toNat = k ∧ KeepsAllBut { regs := [x] } s t) ∧
    ((∀ keys, s.input.keys = some keys → keys = 0) →
      ∃ t, exec (.wtp x) s = .next t ∧ t.pc = s.pc - 2 ∧ KeepsAllBut { pc := true } s t)

/-- 44_display_input.md R136 and 10_state.md R22: a tick of WTP with no key pressed ends where it began, continuing, so that the
next tick runs WTP again; the wait is carried by `pc` alone. -/
def Obligations.KeyWaitRepeats : Prop :=
  ∀ (x : Reg) (s : State) (inp : TickInput) (rest : List HostAct),
    s.host = .tick inp :: rest → NextInstr s (.wtp x) →
    (∀ keys, inp.keys = some keys → keys = 0) →
    ∃ t, step s = .next t ∧ t.report = some .continued ∧ t.fault = none ∧ NextInstr t (.wtp x) ∧
      t.input = inp ∧ t.host = rest ∧ KeepsAllBut { latch := true, world := true } s t

/-! ### Timers -/

/-- 45_timers.md R145 to R147: the three moves. They are the spec's D18 and the directions its D22 (log entry 10). -/
def Obligations.TimerMoves : Prop :=
  ∀ (x : Reg) (s : State),
    (∃ t, exec (.strd x) s = .next t ∧ t.reg x = s.dt ∧ KeepsAllBut { regs := [x] } s t) ∧
    (∃ t, exec (.stdr x) s = .next t ∧ t.dt = s.reg x ∧ t.st = s.st ∧
      KeepsAllBut { timers := true } s t) ∧
    (∃ t, exec (.strs x) s = .next t ∧ t.st = s.reg x ∧ t.dt = s.dt ∧
      KeepsAllBut { timers := true } s t)

/-- 45_timers.md R148: `n` acts of TimerTick take `n` from each timer, stopping at 0, and touch nothing else, in a faulted
machine too. Stopping at 0 is the spec's D18 (log entry 10). -/
def Obligations.TimerTicksDecrement : Prop :=
  ∀ (n : Nat) (rest : List HostAct) (s : State),
    s.host = List.replicate n .timerTick ++ rest →
    ∃ t, stepMany n s = .next t ∧ t.dt.toNat = s.dt.toNat - n ∧
      t.st.toNat = s.st.toNat - n ∧ t.host = rest ∧ t.input = s.input ∧
      KeepsAllBut { timers := true, world := true } s t

/-- 45_timers.md R148: whether a TimerTick step falls before or after an instruction makes no difference, except to the three
instructions that touch a timer. -/
def Obligations.TimerTickCommutes : Prop :=
  ∀ (i : Instr) (s t : State), (∀ x, i ≠ .strd x ∧ i ≠ .stdr x ∧ i ≠ .strs x) →
    exec i s = .next t → exec i s.timerTick = .next t.timerTick

/-! ### Fatal conditions -/

/-- 60_exceptions.md R161: a tick request to a faulted machine is ignored (D9, log entry 12): whatever the inputs, nothing
but the schedule changes. -/
def Obligations.FaultedMachineIgnoresTicks : Prop :=
  ∀ (s : State) (f : Fatal) (inp : TickInput) (rest : List HostAct),
    s.fault = some f → s.host = .tick inp :: rest → step s = .next { s with host := rest }

/-- 60_exceptions.md R162: no instruction clears the latch, and no step of any agent but a reset clears it, changes the
condition it holds, or executes anything; a reset clears it. The latch itself is D9 (log entry 12). -/
def Obligations.OnlyResetClearsTheLatch : Prop :=
  (∀ (i : Instr) (s t : State), s.fault ≠ none → exec i s = .next t → t.fault ≠ none) ∧
  (∀ (s t : State) (f : Fatal), MachineInv s → s.fault = some f → step s = .next t →
    (s.host.head? = some .reset → t.fault = none) ∧
    (s.host.head? ≠ some .reset →
      t.fault = some f ∧ KeepsAllBut { timers := true, world := true } s t))

/-- 60_exceptions.md R161: fatals are precise. When an instruction sets the latch it writes nothing else, in no register, timer,
stack entry or byte of memory (D9, log entry 12). -/
def Obligations.FatalsArePrecise : Prop :=
  ∀ (i : Instr) (s t : State), s.fault = none → exec i s = .next t → t.fault ≠ none →
    t.report = some .fatal ∧ KeepsAllBut { latch := true } s t

/-- 60_exceptions.md R155 and R164: an instruction sets the latch exactly in the circumstances of the table, with that cause and
information; every other instruction is never fatal. The recorded information is D8 (log entry 11). -/
def Obligations.FatalExactlyInTheTable : Prop :=
  ∀ (i : Instr) (s : State), s.fault = none →
    ∃ t, exec i s = .next t ∧ t.fault = raises i s

/-- 60_exceptions.md R157, R158 and R159: STACK_OVERFLOW is raised by CLL with 16 entries in use and by nothing else,
STACK_UNDERFLOW by RET with none and by nothing else, INVALID_KEY_INDEX by SEP and SENP with a value above 15 and by nothing
else (not by WTP); each before anything changes, so that only the latch and the report differ afterwards. -/
def Obligations.StackAndKeyFatalsHaveOneSource : Prop :=
  ∀ (i : Instr) (s t : State), s.fault = none → exec i s = .next t →
    ((∃ a, t.fault = some (.stackOverflow a)) ↔ (∃ nnn, i = .cll nnn) ∧ s.sp.val = 16) ∧
    ((∃ a, t.fault = some (.stackUnderflow a)) ↔ i = .ret ∧ s.sp.val = 0) ∧
    ((∃ k a, t.fault = some (.invalidKeyIndex k a)) ↔
      ∃ x, (i = .sep x ∨ i = .senp x) ∧ 15 < (s.reg x).toNat) ∧
    (t.fault ≠ none → t.sp = s.sp ∧ t.stack = s.stack ∧ t.pc = s.pc) ∧
    ((∃ a, t.fault = some (.stackOverflow a)) ∨ (∃ a, t.fault = some (.stackUnderflow a)) ∨
        (∃ k a, t.fault = some (.invalidKeyIndex k a)) → KeepsAllBut { latch := true } s t)

/-! ### Rules over all instructions -/

/-- 10_state.md R11 and R12: register 15 changes only as a named destination, as one of CFR's, or as the flag of ADDV, ADD, SUB,
SUBR, RSH, LSH or DRW. That the others write no flag is the spec's D14 (log entry 16). -/
def Obligations.FlagRegisterWriters : Prop :=
  ∀ (i : Instr) (s t : State), exec i s = .next t → t.reg flagReg ≠ s.reg flagReg →
    destination i = some flagReg ∨ i = .cfr flagReg ∨
    i.mnemonic ∈ [.addv, .add, .sub, .subr, .rsh, .lsh, .drw]

/-- 10_state.md R13, R17, R19 and 20_memory.md R37 over all instructions: `I` is written by STI, ADDI and STIS only, the stack by
CLL and RET only, `DT` by STDR and `ST` by STRS only, memory by BCD and CTR only, the display by CLD and DRW only, and no
instruction touches the inputs or the schedule. -/
def Obligations.SpecialStateWriters : Prop :=
  ∀ (i : Instr) (s t : State), exec i s = .next t →
    (t.i ≠ s.i → i.mnemonic ∈ [.sti, .addi, .stis]) ∧
    (t.sp ≠ s.sp ∨ t.stack ≠ s.stack → i.mnemonic ∈ [.cll, .ret]) ∧
    (t.dt ≠ s.dt → i.mnemonic = .stdr) ∧ (t.st ≠ s.st → i.mnemonic = .strs) ∧
    (t.mem ≠ s.mem → i.mnemonic ∈ [.bcd, .ctr]) ∧
    (t.display ≠ s.display → i.mnemonic ∈ [.cld, .drw]) ∧
    t.input = s.input ∧ t.host = s.host ∧ t.freeIx = s.freeIx

/-- 10_state.md R23, 00_scope.md section 2: the inputs of a tick matter to RND, DRW, CLD, SEP, SENP and WTP only. Any other
instruction, run in two states that differ in the inputs alone, gives states that differ in the inputs alone. (CLD reads
whether there is a display: D16, log entry 9.) -/
def Obligations.InputsMatterOnlyToSix : Prop :=
  ∀ (i : Instr) (s t : State) (inp : TickInput),
    i.mnemonic ∉ [.rnd, .drw, .cld, .sep, .senp, .wtp] → exec i s = .next t →
    exec i { s with input := inp } = .next { t with input := inp }

/-- Every instruction in every state answers a next state; none stops the model. For a fatal condition this is the model's
choice (log entry 12): 00_scope.md R4 calls a fatal the abort of the running program, and the model takes its entry (60_exceptions.md
R161, D9) as a next state with the latch set, an out-of-range access included. -/
def Obligations.EveryInstructionAnswers : Prop :=
  ∀ (i : Instr) (s : State), ∃ t, exec i s = .next t

/-- A step never refuses, and stops only when the loader breaks an obligation of 70_reset_and_hazards.md: an image that does not
fit (R184) or a load after the first tick (R186). The stops are this model's (log entry 19). -/
def Obligations.OnlyABadLoadStops : Prop :=
  ∀ s : State, (∃ t, step s = .next t) ∨
    ∃ image rest, s.host = .load image :: rest ∧
      ((s.report ≠ none ∧ step s = .fault .loadAfterFirstTick) ∨
       (4096 < Config.programStart.toNat + 2 * image.length ∧ step s = .fault .imageDoesNotFit))

/-! ### The host -/

/-- 70_reset_and_hazards.md R184: before the first tick the loader writes the image from PROGRAM_START on, big-endian, at
consecutive even addresses, and nothing else. (PROGRAM_START is D1, log entry 1: no value of it is used.) -/
def Obligations.LoaderPlacesTheImage : Prop :=
  ∀ (s : State) (image : List Word) (rest : List HostAct), s.mem.wf → s.report = none →
    s.host = .load image :: rest → Config.programStart.toNat + 2 * image.length ≤ 4096 →
    ∃ t, step s = .next t ∧
      (∀ k : Nat, ∀ w : Word, image[k]? = some w →
        t.wordAt (Config.programStart.toNat + 2 * k) = w) ∧
      (∀ a : Nat, (a < Config.programStart.toNat ∨
        Config.programStart.toNat + 2 * image.length ≤ a) → t.byteAt a = s.byteAt a) ∧
      t.host = rest ∧ KeepsAllBut { memory := true, world := true } s t

/-- 70_reset_and_hazards.md R180: a reset puts every piece of engine state to its reset value; what is outside the machine stays
(the model's choice, log entry 5). -/
def Obligations.HostResetRestoresTheResetState : Prop :=
  ∀ (s : State) (rest : List HostAct), s.host = .reset :: rest →
    ∃ t, step s = .next t ∧ t.host = rest ∧ t.display = s.display ∧ t.freeIx = s.freeIx ∧
      { t with host := [], display := [], freeIx := 0 } = State.reset

/-- 30_encoding.md R62 to R64: assembling one source line per instruction gives the encodings in order, where they fit. The
digits' and the mnemonics' letter case are this model's (log entry 21). -/
def Obligations.AssemblerEmitsTheEncodings : Prop :=
  ∀ is : List Instr, Config.programStart.toNat + 2 * is.length ≤ 4096 →
    assemble (is.map sourceLine) = .ok (is.map encode)

/-- 30_encoding.md R65 and R66: a name used as a statement becomes a call of the definition of that name, whose words follow the
main text and end with RET. Stated for one definition, since the order of several is open (log entry 22). -/
def Obligations.ReferenceBecomesACall : Prop :=
  ∀ (before after body : List Instr) (name : List Char),
    name ≠ [] → (∀ c ∈ name, c.isWhitespace = false) → name.head? ≠ some '#' →
    name.take 2 ≠ ['/', '/'] → mnemonicOf name = none → Instr.ret ∉ body →
    Config.programStart.toNat + 2 * (before.length + after.length + body.length + 2) ≤ 4096 →
    assemble (before.map sourceLine ++ [name] ++ after.map sourceLine ++
        [['#', 'f', ' '] ++ name] ++ body.map sourceLine ++ [sourceLine .ret]) =
      .ok (before.map encode ++
        [encode (.cll (BitVec.ofNat 12
          (Config.programStart.toNat + 2 * (before.length + 1 + after.length))))] ++
        after.map encode ++ body.map encode ++ [encode .ret])

/-- 30_encoding.md R65 and R66: a name used inside a definition emits the placeholder into the definition's buffer. If it is never
defined the placeholder stays and nothing else is patched; if it is defined (here the definition's own name) at most one place
of the image is overwritten, and with the call of that definition. Which place is not in the source and free (log entry 22). -/
def Obligations.ReferenceInsideADefinition : Prop :=
  ∀ (main before after : List Instr) (name used : List Char),
    (∀ n ∈ [name, used], n ≠ [] ∧ (∀ c ∈ n, c.isWhitespace = false) ∧ n.head? ≠ some '#' ∧
      n.take 2 ≠ ['/', '/'] ∧ mnemonicOf n = none) →
    Instr.ret ∉ before → Instr.ret ∉ after →
    Config.programStart.toNat + 2 * (main.length + before.length + after.length + 2) ≤ 4096 →
    ∃ image, assemble (main.map sourceLine ++ [['#', 'f', ' '] ++ name] ++ before.map sourceLine ++
        [used] ++ after.map sourceLine ++ [sourceLine .ret]) = .ok image ∧
      let emitted := main.map encode ++ before.map encode ++ [Config.placeholderWord] ++
        after.map encode ++ [encode .ret]
      if used = name then
        image = emitted ∨ ∃ place, image = emitted.set place
          (encode (.cll (BitVec.ofNat 12 (Config.programStart.toNat + 2 * main.length))))
      else image = emitted
end

