-- ==== Sys2Proof/Laws/Assembler.lean ====
section
/-! SUPPORT. Reading back what `sourceLine` writes: a line is cut into the tokens it was made of, and hexadecimal text is the number it was made from; what emitting, ordering and patching do. -/

namespace Sys2Proof.Machine

/-- A token holds no white space. -/
abbrev NoSpace (t : Chars) : Prop := ∀ c ∈ t, c.isWhitespace = false

theorem tokensFrom_append (cur t : Chars) (h : NoSpace t) (rest : Chars) :
    tokensFrom cur (t ++ rest) = tokensFrom (t.reverse ++ cur) rest := by
  induction t generalizing cur with
  | nil => rfl
  | cons c t ih =>
    have hc := h c (by simp)
    simp [tokensFrom, hc, ih (c :: cur) fun d hd => h d (by simp [hd])]

theorem tokensFrom_space (cur rest : Chars) (hc : cur ≠ []) :
    tokensFrom cur (' ' :: rest) = cur.reverse :: tokensFrom [] rest := by
  have : (' ').isWhitespace = true := by decide
  simp [tokensFrom, this, hc]

/-- A line made of tokens, one space before each but the first, is cut into those tokens (R62). -/
theorem tokensOf_line (t : Chars) (ht : NoSpace t) (hne : t ≠ []) (ops : List Chars)
    (h : ∀ o ∈ ops, NoSpace o ∧ o ≠ []) :
    tokensOf (t ++ ops.flatMap fun o => ' ' :: o) = t :: ops := by
  induction ops generalizing t with
  | nil =>
    have := tokensFrom_append [] t ht []
    simp only [tokensOf, List.flatMap_nil, this]
    simp [tokensFrom, hne]
  | cons o ops ih =>
    have := ih o (h o (by simp)).1 (h o (by simp)).2 fun p hp => h p (by simp [hp])
    simp only [tokensOf, List.flatMap_cons] at *
    rw [tokensFrom_append [] t ht, List.cons_append, tokensFrom_space _ _ (by simpa)]
    simp [this]

theorem hexChar_read (n : Fin 16) :
    (hexChar n).isWhitespace = false ∧ hexDigit (hexChar n) = some n.val := by
  revert n; decide

theorem noSpace_hexChars (k n : Nat) : NoSpace (hexChars k n) := by
  induction k generalizing n with
  | zero => simp [hexChars, NoSpace]
  | succ k ih =>
    intro c hc
    simp only [hexChars, List.mem_append, List.mem_singleton] at hc
    rcases hc with hc | rfl
    · exact ih _ c hc
    · exact (hexChar_read ⟨n % 16, by omega⟩).1

theorem hexFrom_append (acc : Nat) (l : Chars) (c : Char) :
    hexFrom acc (l ++ [c]) =
      (hexFrom acc l).bind fun a => (hexDigit c).bind fun d => some (16 * a + d) := by
  induction l generalizing acc with
  | nil => simp [hexFrom]
  | cons e l ih =>
    simp only [List.cons_append, hexFrom]
    cases hexDigit e <;> simp [ih]

theorem hexFrom_hexChars (k n : Nat) (h : n < 16 ^ k) : hexFrom 0 (hexChars k n) = some n := by
  induction k generalizing n with
  | zero => simp at h; simp [hexChars, hexFrom, h]
  | succ k ih =>
    have e := (hexChar_read ⟨n % 16, by omega⟩).2
    simp only at e
    rw [hexChars, hexFrom_append, ih (n / 16) (by rw [pow_succ] at h; omega)]
    simp [e]
    omega

/-- A number written with enough digits reads back as itself (R64). -/
theorem hexOf_hexChars (k n : Nat) (h : n < 16 ^ (k + 1)) : hexOf (hexChars (k + 1) n) = some n := by
  rw [hexOf, hexFrom_hexChars _ _ h, if_neg]
  simp [hexChars]

/-- Lines taken one after another: the second run of lines starts where the first ended (R62). -/
theorem takeLines_append {s s' : AsmState} {n : Nat} {l l' : List Chars}
    (h : s.takeLines n l = .ok s') :
    s.takeLines n (l ++ l') = s'.takeLines (n + l.length) l' := by
  induction l generalizing s n with
  | nil => simp only [AsmState.takeLines, Except.ok.injEq] at h; subst h; rfl
  | cons a l ih =>
    simp only [AsmState.takeLines, List.cons_append] at h ⊢
    split at h
    · rw [ih h, List.length_cons, Nat.add_right_comm, Nat.add_assoc]
    · cases h

theorem insertDefinition_perm (k : Nat) (d : Definition) (ds : List (Nat × Definition)) :
    (insertDefinition k d ds).Perm ((k, d) :: ds) := by
  induction ds with
  | nil => rfl
  | cons e ds ih =>
    simp only [insertDefinition]
    split
    · rfl
    · exact (ih.cons e).trans (.swap ..)

/-- Whatever the free order is, every definition is appended once and nothing else is. -/
theorem appendOrder_perm (source : List Chars) (ds : List Definition) : (appendOrder source ds).Perm ds := by
  have key : ∀ l : List (Definition × Nat),
      ((l.foldr (fun (d, n) acc => insertDefinition (Config.definitionKey source n) d acc) []).map Prod.snd).Perm
        (l.map Prod.fst) := by
    intro l
    induction l with
    | nil => rfl
    | cons p l ih => exact ((insertDefinition_perm ..).map _).trans (ih.cons _)
  simpa [appendOrder] using key ds.zipIdx

theorem appendOrder_singleton (source : List Chars) (d : Definition) : appendOrder source [d] = [d] := rfl

@[simp] theorem patch_length (image : List Word) (site : Option Nat) (call : Option Word) :
    (patch image site call).length = image.length := by
  cases site <;> cases call <;> simp [patch]

/-- Patching for the references inside definitions never changes how long the image is. -/
@[simp] theorem patchInside_length (source : List Chars) (starts : List (Chars × Nat)) (n : Nat) (image : List Word)
    (names : List Chars) : (patchInside source starts n image names).length = image.length := by
  induction names generalizing n image with
  | nil => rfl
  | cons name names ih => simp [patchInside, ih]

/-- A text whose definitions hold no reference is only resolved, never patched. -/
theorem patchInside_nil (source : List Chars) (starts : List (Chars × Nat)) (n : Nat) (image : List Word) :
    patchInside source starts n image [] = image := rfl

@[simp] theorem emit_closed (s : AsmState) (slot : Slot) : (s.emit slot).closed = s.closed := by
  unfold AsmState.emit; split <;> rfl

theorem emit_outside {s : AsmState} (h : s.current = none) (slot : Slot) :
    s.emit slot = { s with image := s.image ++ [slot] } := by simp [AsmState.emit, h]

theorem emit_inside {s : AsmState} {name : Chars} {buffer : List Slot} (h : s.current = some (name, buffer))
    (slot : Slot) : s.emit slot = { s with current := some (name, buffer ++ [slot]) } := by simp [AsmState.emit, h]

theorem close_outside {s : AsmState} (h : s.current = none) : s.close = s := by
  cases s; simp_all [AsmState.close]

theorem names_of_words (ws : List Word) : (ws.map Slot.word).filterMap Slot.name? = [] := by
  simp [List.filterMap_eq_nil_iff, Slot.name?]

theorem emitted_words (ws : List Word) : (ws.map Slot.word).map emittedWord = ws := by
  simp [Function.comp_def, emittedWord]

theorem resolved_words (starts : List (Chars × Nat)) (ws : List Word) :
    (ws.map Slot.word).map (resolveSlot starts) = ws := by
  simp [Function.comp_def, resolveSlot]

/-- The image is as long as the main text and all definitions together, whatever is patched (R65). -/
theorem resolve_length (source : List Chars) (s : AsmState) :
    (AsmState.resolve source s).length = s.image.length + (s.close.closed.flatMap Prod.snd).length := by
  have := ((appendOrder_perm source s.close.closed).flatMap_right Prod.snd).length_eq
  simp only [AsmState.resolve, patchInside_length, List.length_append, List.length_map, this]

end Sys2Proof.Machine
end

