-- ==== Sys2Proof/Laws/Decode.lean ====
section
/-! SUPPORT. The fields of an encoded word are the operands it was built from, and the bytes of a word make the word again. -/

namespace Sys2Proof

@[simp] theorem nibble_toFin (x : Fin 16) : (nibble x).toFin = x := rfl

@[simp] theorem nibble_toNat (x : Fin 16) : (nibble x).toNat = x.val := rfl

/-- The views of a word of format XYD (30_encoding.md R53). -/
theorem fields_wordXYD (g : Nibble) (x y : Reg) (d : Nibble) :
    fields (wordXYD g x y d) = ⟨g, nibble x, nibble y, d, nibble y ++ d, nibble x ++ nibble y ++ d⟩ := by
  simp only [fields, wordXYD, Fields.mk.injEq]
  refine ⟨?_, ?_, ?_, ?_, ?_, ?_⟩ <;>
    · ext k hk
      simp only [BitVec.getLsbD_append, ← BitVec.getLsbD_eq_getElem]
      grind

/-- The views of a word of format XKK (30_encoding.md R53). -/
theorem fields_wordXKK (g : Nibble) (x : Reg) (kk : Byte) :
    fields (wordXKK g x kk) =
      ⟨g, nibble x, kk.extractLsb' 4 4, kk.extractLsb' 0 4, kk, nibble x ++ kk⟩ := by
  simp only [fields, wordXKK, Fields.mk.injEq]
  refine ⟨?_, ?_, ?_, ?_, ?_, ?_⟩ <;>
    · ext k hk
      simp only [BitVec.getLsbD_append, ← BitVec.getLsbD_eq_getElem, BitVec.getLsbD_extractLsb']
      grind

/-- The views of a word of format NNN (30_encoding.md R53). -/
theorem fields_wordNNN (g : Nibble) (nnn : Addr12) :
    fields (wordNNN g nnn) =
      ⟨g, nnn.extractLsb' 8 4, nnn.extractLsb' 4 4, nnn.extractLsb' 0 4, nnn.extractLsb' 0 8, nnn⟩ := by
  simp only [fields, wordNNN, Fields.mk.injEq]
  refine ⟨?_, ?_, ?_, ?_, ?_, ?_⟩ <;>
    · ext k hk
      simp only [BitVec.getLsbD_append, ← BitVec.getLsbD_eq_getElem, BitVec.getLsbD_extractLsb']
      grind

/-- The two bytes of a word make the word (20_memory.md R34). -/
@[simp] theorem wordOfBytes_bytes (w : Word) : wordOfBytes (highByte w) (lowByte w) = w := by
  ext k hk
  simp only [wordOfBytes, highByte, lowByte, ← BitVec.getLsbD_eq_getElem, BitVec.getLsbD_append,
    BitVec.getLsbD_extractLsb']
  grind

@[simp] theorem highByte_wordOfBytes (hi lo : Byte) : highByte (wordOfBytes hi lo) = hi := by
  ext k hk
  simp only [wordOfBytes, highByte, BitVec.getElem_extractLsb', BitVec.getLsbD_append]
  grind

@[simp] theorem lowByte_wordOfBytes (hi lo : Byte) : lowByte (wordOfBytes hi lo) = lo := by
  ext k hk
  simp only [wordOfBytes, lowByte, BitVec.getElem_extractLsb', BitVec.getLsbD_append]
  grind

/-- `decode` succeeds exactly where a pattern selects the word (30_encoding.md R52). -/
theorem decode_eq_ok {w : Word} {i : Instr} : decode w = .ok i ↔ select w = some i := by
  unfold decode
  split <;> simp_all

/-- A rejection is by name and carries the word (30_encoding.md R58). -/
theorem decode_eq_error {w : Word} {r : Reject} :
    decode w = .error r ↔ select w = none ∧ r = .invalidInstruction w := by
  unfold decode
  cases select w <;> simp [eq_comm]

end Sys2Proof
end

