-- ==== Sys2Proof/Laws/Memory.lean ====
section
/-! SUPPORT. The laws of Memory: a byte read back after a store, the bytes a store leaves alone, the canonical form kept, and equal contents being equal data. -/

namespace Sys2Proof.Machine.Memory

@[simp] theorem read_nil (a : Nat) : Memory.read [] a = Memory.initial a := rfl

theorem read_cons (b : Nat) (w : Byte) (m : Memory) (a : Nat) :
    Memory.read ((b, w) :: m) a = if a = b then w else Memory.read m a := rfl

theorem wf_nil : Memory.wf [] := by simp [Memory.wf]

/-- A canonical memory is a head below its canonical rest. -/
theorem wf_cons {b : Nat} {w : Byte} {m : Memory} :
    Memory.wf ((b, w) :: m) ↔
      (∀ p ∈ m, b < p.1) ∧ b < Config.memSize ∧ w ≠ Memory.initial b ∧ Memory.wf m := by
  simp only [Memory.wf, List.pairwise_cons, List.forall_mem_cons]
  tauto

/-- An address below every entry reads as at reset. -/
theorem read_of_lt {m : Memory} {a : Nat} (h : ∀ p ∈ m, a < p.1) :
    Memory.read m a = Memory.initial a := by
  induction m with
  | nil => rfl
  | cons p m ih =>
    obtain ⟨b, w⟩ := p
    have hb : a < b := h (b, w) (by simp)
    rw [read_cons, if_neg (by omega)]
    exact ih fun q hq => h q (by simp [hq])

/-- A store is read back, and every other address reads as before (20_memory.md R30, R31). -/
theorem read_write {m : Memory} (wf : m.wf) (a : Nat) (v : Byte) (c : Nat) :
    Memory.read (Memory.write m a v) c = if c = a then v else Memory.read m c := by
  induction m with
  | nil =>
    by_cases hv : v = Memory.initial a
    · rw [Memory.write, if_pos hv]; split <;> simp_all
    · rw [Memory.write, if_neg hv, read_cons]
  | cons p m ih =>
    obtain ⟨b, w⟩ := p
    obtain ⟨hlt, -, -, hm⟩ := wf_cons.1 wf
    simp only [Memory.write]
    by_cases hab : a < b
    · have hr : Memory.read ((b, w) :: m) a = Memory.initial a :=
        read_of_lt fun q hq => by
          rcases List.mem_cons.1 hq with rfl | hq
          · exact hab
          · exact hab.trans (hlt q hq)
      rw [if_pos hab]
      split_ifs with hv hc hc
      · rw [hc, hr, hv]
      · rfl
      · rw [read_cons, if_pos hc]
      · rw [read_cons, if_neg hc]
    · rw [if_neg hab]
      by_cases hb : a = b
      · subst hb
        rw [if_pos rfl]
        split_ifs with hv hc hc
        · rw [hc, hv, read_of_lt hlt]
        · rw [read_cons, if_neg hc]
        · rw [read_cons, if_pos hc]
        · rw [read_cons, if_neg hc, read_cons, if_neg hc]
      · rw [if_neg hb, read_cons, read_cons, ih hm]
        split_ifs <;> first | rfl | omega

theorem mem_write {m : Memory} {a : Nat} {v : Byte} {p : Host.Cell}
    (h : p ∈ Memory.write m a v) : p ∈ m ∨ p = (a, v) := by
  induction m with
  | nil => simp only [Memory.write] at h; split at h <;> simp_all
  | cons q m ih =>
    obtain ⟨b, w⟩ := q
    simp only [Memory.write] at h
    split_ifs at h <;> simp only [List.mem_cons] at h ⊢ <;> tauto

/-- A store inside the address space keeps the canonical form. -/
theorem wf_write {m : Memory} (wf : m.wf) {a : Nat} (ha : a < Config.memSize) (v : Byte) :
    (Memory.write m a v).wf := by
  induction m with
  | nil =>
    simp only [Memory.write]
    split_ifs with hv
    · exact wf_nil
    · exact wf_cons.2 ⟨by simp, ha, hv, wf_nil⟩
  | cons p m ih =>
    obtain ⟨b, w⟩ := p
    obtain ⟨hlt, hb, hw, hm⟩ := wf_cons.1 wf
    simp only [Memory.write]
    split_ifs with h1 h2 h3 h4
    · exact wf
    · refine wf_cons.2 ⟨fun q hq => ?_, ha, h2, wf⟩
      rcases List.mem_cons.1 hq with rfl | hq
      · exact h1
      · exact h1.trans (hlt q hq)
    · exact hm
    · subst h3
      exact wf_cons.2 ⟨hlt, hb, h4, hm⟩
    · refine wf_cons.2 ⟨fun q hq => ?_, hb, hw, ih hm⟩
      rcases mem_write hq with hq | rfl
      · exact hlt q hq
      · show b < a; omega

/-- A run of stores inside the address space keeps the canonical form. -/
theorem wf_writeBytes {m : Memory} (wf : m.wf) {a : Nat} {vs : List Byte}
    (h : a + vs.length ≤ Config.memSize) : (Memory.writeBytes m a vs).wf := by
  induction vs generalizing m a with
  | nil => exact wf
  | cons v vs ih =>
    simp only [List.length_cons] at h
    exact ih (wf_write wf (by omega) v) (by omega)

/-- What every address reads as after a run of stores: the stored byte inside the run, its old byte outside. -/
theorem read_writeBytes {m : Memory} (wf : m.wf) {a : Nat} {vs : List Byte}
    (h : a + vs.length ≤ Config.memSize) (c : Nat) :
    Memory.read (Memory.writeBytes m a vs) c =
      if a ≤ c ∧ c < a + vs.length then vs.getD (c - a) 0 else Memory.read m c := by
  induction vs generalizing m a with
  | nil => rw [if_neg (by simp)]; rfl
  | cons v vs ih =>
    simp only [List.length_cons] at h ⊢
    rw [Memory.writeBytes, ih (wf_write wf (by omega) v) (by omega), read_write wf]
    by_cases hc : c = a
    · subst hc; simp
    · by_cases hin : a ≤ c ∧ c < a + (vs.length + 1)
      · rw [if_pos (by omega), if_pos hin]
        obtain ⟨k, hk⟩ : ∃ k, c - a = k + 1 := ⟨c - a - 1, by omega⟩
        rw [hk, List.getD_cons_succ, show c - (a + 1) = k by omega]
      · rw [if_neg (by omega), if_neg hin, if_neg hc]

/-- Canonical memories that read alike everywhere are the same data. -/
theorem ext_of_read {m m' : Memory} (wf : m.wf) (wf' : m'.wf)
    (h : ∀ a, Memory.read m a = Memory.read m' a) : m = m' := by
  induction m generalizing m' with
  | nil =>
    cases m' with
    | nil => rfl
    | cons p m' =>
      obtain ⟨b, w⟩ := p
      exact absurd (by simpa [read_cons] using (h b).symm) (wf_cons.1 wf').2.2.1
  | cons p m ih =>
    obtain ⟨b, w⟩ := p
    obtain ⟨hlt, -, hw, hm⟩ := wf_cons.1 wf
    cases m' with
    | nil => exact absurd (by simpa [read_cons] using h b) hw
    | cons p' m' =>
      obtain ⟨b', w'⟩ := p'
      obtain ⟨hlt', -, hw', hm'⟩ := wf_cons.1 wf'
      have hb : b = b' := by
        rcases lt_trichotomy b b' with hb | hb | hb
        · exfalso
          apply hw
          have := h b
          rw [read_cons, if_pos rfl] at this
          rw [this]
          exact read_of_lt fun q hq => by
            rcases List.mem_cons.1 hq with rfl | hq
            · exact hb
            · exact hb.trans (hlt' q hq)
        · exact hb
        · exfalso
          apply hw'
          have := (h b').symm
          rw [read_cons, if_pos rfl] at this
          rw [this]
          exact read_of_lt fun q hq => by
            rcases List.mem_cons.1 hq with rfl | hq
            · exact hb
            · exact hb.trans (hlt q hq)
      subst hb
      have hww : w = w' := by simpa [read_cons] using h b
      subst hww
      rw [ih hm hm' fun a => ?_]
      by_cases ha : a = b
      · subst ha
        rw [read_of_lt hlt, read_of_lt hlt']
      · simpa [read_cons, ha] using h a

end Sys2Proof.Machine.Memory
end

