-- ==== Sys2Proof/Laws/State.lean ====
section
/-! SUPPORT. One lemma per field of State per update of Machine/Ops.lean and Machine/Tick.lean: what each update leaves in each field. -/

namespace Sys2Proof.Machine

variable (s : State)

/-! #### setReg -/

@[simp] theorem setReg_v (x : Reg) (b : Byte) : (s.setReg x b).v = s.v.set x b := rfl
@[simp] theorem setReg_i (x : Reg) (b : Byte) : (s.setReg x b).i = s.i := rfl
@[simp] theorem setReg_pc (x : Reg) (b : Byte) : (s.setReg x b).pc = s.pc := rfl
@[simp] theorem setReg_sp (x : Reg) (b : Byte) : (s.setReg x b).sp = s.sp := rfl
@[simp] theorem setReg_stack (x : Reg) (b : Byte) : (s.setReg x b).stack = s.stack := rfl
@[simp] theorem setReg_dt (x : Reg) (b : Byte) : (s.setReg x b).dt = s.dt := rfl
@[simp] theorem setReg_st (x : Reg) (b : Byte) : (s.setReg x b).st = s.st := rfl
@[simp] theorem setReg_mem (x : Reg) (b : Byte) : (s.setReg x b).mem = s.mem := rfl
@[simp] theorem setReg_fault (x : Reg) (b : Byte) : (s.setReg x b).fault = s.fault := rfl
@[simp] theorem setReg_report (x : Reg) (b : Byte) : (s.setReg x b).report = s.report := rfl
@[simp] theorem setReg_input (x : Reg) (b : Byte) : (s.setReg x b).input = s.input := rfl
@[simp] theorem setReg_display (x : Reg) (b : Byte) : (s.setReg x b).display = s.display := rfl
@[simp] theorem setReg_host (x : Reg) (b : Byte) : (s.setReg x b).host = s.host := rfl
@[simp] theorem setReg_freeIx (x : Reg) (b : Byte) : (s.setReg x b).freeIx = s.freeIx := rfl

/-! #### setRegsUpTo -/

@[simp] theorem setRegsUpTo_v (x : Reg) (f : Nat → Byte) : (s.setRegsUpTo x f).v = Vector.ofFn fun k : Fin 16 => if k.val ≤ x.val then f k.val else s.v[k] := rfl
@[simp] theorem setRegsUpTo_i (x : Reg) (f : Nat → Byte) : (s.setRegsUpTo x f).i = s.i := rfl
@[simp] theorem setRegsUpTo_pc (x : Reg) (f : Nat → Byte) : (s.setRegsUpTo x f).pc = s.pc := rfl
@[simp] theorem setRegsUpTo_sp (x : Reg) (f : Nat → Byte) : (s.setRegsUpTo x f).sp = s.sp := rfl
@[simp] theorem setRegsUpTo_stack (x : Reg) (f : Nat → Byte) : (s.setRegsUpTo x f).stack = s.stack := rfl
@[simp] theorem setRegsUpTo_dt (x : Reg) (f : Nat → Byte) : (s.setRegsUpTo x f).dt = s.dt := rfl
@[simp] theorem setRegsUpTo_st (x : Reg) (f : Nat → Byte) : (s.setRegsUpTo x f).st = s.st := rfl
@[simp] theorem setRegsUpTo_mem (x : Reg) (f : Nat → Byte) : (s.setRegsUpTo x f).mem = s.mem := rfl
@[simp] theorem setRegsUpTo_fault (x : Reg) (f : Nat → Byte) : (s.setRegsUpTo x f).fault = s.fault := rfl
@[simp] theorem setRegsUpTo_report (x : Reg) (f : Nat → Byte) : (s.setRegsUpTo x f).report = s.report := rfl
@[simp] theorem setRegsUpTo_input (x : Reg) (f : Nat → Byte) : (s.setRegsUpTo x f).input = s.input := rfl
@[simp] theorem setRegsUpTo_display (x : Reg) (f : Nat → Byte) : (s.setRegsUpTo x f).display = s.display := rfl
@[simp] theorem setRegsUpTo_host (x : Reg) (f : Nat → Byte) : (s.setRegsUpTo x f).host = s.host := rfl
@[simp] theorem setRegsUpTo_freeIx (x : Reg) (f : Nat → Byte) : (s.setRegsUpTo x f).freeIx = s.freeIx := rfl

/-! #### setI -/

@[simp] theorem setI_v (a : Addr) : (s.setI a).v = s.v := rfl
@[simp] theorem setI_i (a : Addr) : (s.setI a).i = a := rfl
@[simp] theorem setI_pc (a : Addr) : (s.setI a).pc = s.pc := rfl
@[simp] theorem setI_sp (a : Addr) : (s.setI a).sp = s.sp := rfl
@[simp] theorem setI_stack (a : Addr) : (s.setI a).stack = s.stack := rfl
@[simp] theorem setI_dt (a : Addr) : (s.setI a).dt = s.dt := rfl
@[simp] theorem setI_st (a : Addr) : (s.setI a).st = s.st := rfl
@[simp] theorem setI_mem (a : Addr) : (s.setI a).mem = s.mem := rfl
@[simp] theorem setI_fault (a : Addr) : (s.setI a).fault = s.fault := rfl
@[simp] theorem setI_report (a : Addr) : (s.setI a).report = s.report := rfl
@[simp] theorem setI_input (a : Addr) : (s.setI a).input = s.input := rfl
@[simp] theorem setI_display (a : Addr) : (s.setI a).display = s.display := rfl
@[simp] theorem setI_host (a : Addr) : (s.setI a).host = s.host := rfl
@[simp] theorem setI_freeIx (a : Addr) : (s.setI a).freeIx = s.freeIx := rfl

/-! #### setPc -/

@[simp] theorem setPc_v (a : Addr) : (s.setPc a).v = s.v := rfl
@[simp] theorem setPc_i (a : Addr) : (s.setPc a).i = s.i := rfl
@[simp] theorem setPc_pc (a : Addr) : (s.setPc a).pc = a := rfl
@[simp] theorem setPc_sp (a : Addr) : (s.setPc a).sp = s.sp := rfl
@[simp] theorem setPc_stack (a : Addr) : (s.setPc a).stack = s.stack := rfl
@[simp] theorem setPc_dt (a : Addr) : (s.setPc a).dt = s.dt := rfl
@[simp] theorem setPc_st (a : Addr) : (s.setPc a).st = s.st := rfl
@[simp] theorem setPc_mem (a : Addr) : (s.setPc a).mem = s.mem := rfl
@[simp] theorem setPc_fault (a : Addr) : (s.setPc a).fault = s.fault := rfl
@[simp] theorem setPc_report (a : Addr) : (s.setPc a).report = s.report := rfl
@[simp] theorem setPc_input (a : Addr) : (s.setPc a).input = s.input := rfl
@[simp] theorem setPc_display (a : Addr) : (s.setPc a).display = s.display := rfl
@[simp] theorem setPc_host (a : Addr) : (s.setPc a).host = s.host := rfl
@[simp] theorem setPc_freeIx (a : Addr) : (s.setPc a).freeIx = s.freeIx := rfl

/-! #### skipIf -/

@[simp] theorem skipIf_v (c : Bool) : (s.skipIf c).v = s.v := rfl
@[simp] theorem skipIf_i (c : Bool) : (s.skipIf c).i = s.i := rfl
@[simp] theorem skipIf_pc (c : Bool) : (s.skipIf c).pc = if c then s.pc + 2 else s.pc := rfl
@[simp] theorem skipIf_sp (c : Bool) : (s.skipIf c).sp = s.sp := rfl
@[simp] theorem skipIf_stack (c : Bool) : (s.skipIf c).stack = s.stack := rfl
@[simp] theorem skipIf_dt (c : Bool) : (s.skipIf c).dt = s.dt := rfl
@[simp] theorem skipIf_st (c : Bool) : (s.skipIf c).st = s.st := rfl
@[simp] theorem skipIf_mem (c : Bool) : (s.skipIf c).mem = s.mem := rfl
@[simp] theorem skipIf_fault (c : Bool) : (s.skipIf c).fault = s.fault := rfl
@[simp] theorem skipIf_report (c : Bool) : (s.skipIf c).report = s.report := rfl
@[simp] theorem skipIf_input (c : Bool) : (s.skipIf c).input = s.input := rfl
@[simp] theorem skipIf_display (c : Bool) : (s.skipIf c).display = s.display := rfl
@[simp] theorem skipIf_host (c : Bool) : (s.skipIf c).host = s.host := rfl
@[simp] theorem skipIf_freeIx (c : Bool) : (s.skipIf c).freeIx = s.freeIx := rfl

/-! #### push -/

@[simp] theorem push_v (a : Addr) (room : s.sp.val < 16) : (s.push a room).v = s.v := rfl
@[simp] theorem push_i (a : Addr) (room : s.sp.val < 16) : (s.push a room).i = s.i := rfl
@[simp] theorem push_pc (a : Addr) (room : s.sp.val < 16) : (s.push a room).pc = s.pc := rfl
@[simp] theorem push_sp (a : Addr) (room : s.sp.val < 16) : (s.push a room).sp = ⟨s.sp.val + 1, by omega⟩ := rfl
@[simp] theorem push_stack (a : Addr) (room : s.sp.val < 16) : (s.push a room).stack = s.stack.set s.sp.val a := rfl
@[simp] theorem push_dt (a : Addr) (room : s.sp.val < 16) : (s.push a room).dt = s.dt := rfl
@[simp] theorem push_st (a : Addr) (room : s.sp.val < 16) : (s.push a room).st = s.st := rfl
@[simp] theorem push_mem (a : Addr) (room : s.sp.val < 16) : (s.push a room).mem = s.mem := rfl
@[simp] theorem push_fault (a : Addr) (room : s.sp.val < 16) : (s.push a room).fault = s.fault := rfl
@[simp] theorem push_report (a : Addr) (room : s.sp.val < 16) : (s.push a room).report = s.report := rfl
@[simp] theorem push_input (a : Addr) (room : s.sp.val < 16) : (s.push a room).input = s.input := rfl
@[simp] theorem push_display (a : Addr) (room : s.sp.val < 16) : (s.push a room).display = s.display := rfl
@[simp] theorem push_host (a : Addr) (room : s.sp.val < 16) : (s.push a room).host = s.host := rfl
@[simp] theorem push_freeIx (a : Addr) (room : s.sp.val < 16) : (s.push a room).freeIx = s.freeIx := rfl

/-! #### popPc -/

@[simp] theorem popPc_v (used : 0 < s.sp.val) : (s.popPc used).v = s.v := rfl
@[simp] theorem popPc_i (used : 0 < s.sp.val) : (s.popPc used).i = s.i := rfl
@[simp] theorem popPc_pc (used : 0 < s.sp.val) : (s.popPc used).pc = s.stack[s.sp.val - 1]'(by omega) := rfl
@[simp] theorem popPc_sp (used : 0 < s.sp.val) : (s.popPc used).sp = ⟨s.sp.val - 1, by omega⟩ := rfl
@[simp] theorem popPc_stack (used : 0 < s.sp.val) : (s.popPc used).stack = s.stack := rfl
@[simp] theorem popPc_dt (used : 0 < s.sp.val) : (s.popPc used).dt = s.dt := rfl
@[simp] theorem popPc_st (used : 0 < s.sp.val) : (s.popPc used).st = s.st := rfl
@[simp] theorem popPc_mem (used : 0 < s.sp.val) : (s.popPc used).mem = s.mem := rfl
@[simp] theorem popPc_fault (used : 0 < s.sp.val) : (s.popPc used).fault = s.fault := rfl
@[simp] theorem popPc_report (used : 0 < s.sp.val) : (s.popPc used).report = s.report := rfl
@[simp] theorem popPc_input (used : 0 < s.sp.val) : (s.popPc used).input = s.input := rfl
@[simp] theorem popPc_display (used : 0 < s.sp.val) : (s.popPc used).display = s.display := rfl
@[simp] theorem popPc_host (used : 0 < s.sp.val) : (s.popPc used).host = s.host := rfl
@[simp] theorem popPc_freeIx (used : 0 < s.sp.val) : (s.popPc used).freeIx = s.freeIx := rfl

/-! #### setDt -/

@[simp] theorem setDt_v (b : Byte) : (s.setDt b).v = s.v := rfl
@[simp] theorem setDt_i (b : Byte) : (s.setDt b).i = s.i := rfl
@[simp] theorem setDt_pc (b : Byte) : (s.setDt b).pc = s.pc := rfl
@[simp] theorem setDt_sp (b : Byte) : (s.setDt b).sp = s.sp := rfl
@[simp] theorem setDt_stack (b : Byte) : (s.setDt b).stack = s.stack := rfl
@[simp] theorem setDt_dt (b : Byte) : (s.setDt b).dt = b := rfl
@[simp] theorem setDt_st (b : Byte) : (s.setDt b).st = s.st := rfl
@[simp] theorem setDt_mem (b : Byte) : (s.setDt b).mem = s.mem := rfl
@[simp] theorem setDt_fault (b : Byte) : (s.setDt b).fault = s.fault := rfl
@[simp] theorem setDt_report (b : Byte) : (s.setDt b).report = s.report := rfl
@[simp] theorem setDt_input (b : Byte) : (s.setDt b).input = s.input := rfl
@[simp] theorem setDt_display (b : Byte) : (s.setDt b).display = s.display := rfl
@[simp] theorem setDt_host (b : Byte) : (s.setDt b).host = s.host := rfl
@[simp] theorem setDt_freeIx (b : Byte) : (s.setDt b).freeIx = s.freeIx := rfl

/-! #### setSt -/

@[simp] theorem setSt_v (b : Byte) : (s.setSt b).v = s.v := rfl
@[simp] theorem setSt_i (b : Byte) : (s.setSt b).i = s.i := rfl
@[simp] theorem setSt_pc (b : Byte) : (s.setSt b).pc = s.pc := rfl
@[simp] theorem setSt_sp (b : Byte) : (s.setSt b).sp = s.sp := rfl
@[simp] theorem setSt_stack (b : Byte) : (s.setSt b).stack = s.stack := rfl
@[simp] theorem setSt_dt (b : Byte) : (s.setSt b).dt = s.dt := rfl
@[simp] theorem setSt_st (b : Byte) : (s.setSt b).st = b := rfl
@[simp] theorem setSt_mem (b : Byte) : (s.setSt b).mem = s.mem := rfl
@[simp] theorem setSt_fault (b : Byte) : (s.setSt b).fault = s.fault := rfl
@[simp] theorem setSt_report (b : Byte) : (s.setSt b).report = s.report := rfl
@[simp] theorem setSt_input (b : Byte) : (s.setSt b).input = s.input := rfl
@[simp] theorem setSt_display (b : Byte) : (s.setSt b).display = s.display := rfl
@[simp] theorem setSt_host (b : Byte) : (s.setSt b).host = s.host := rfl
@[simp] theorem setSt_freeIx (b : Byte) : (s.setSt b).freeIx = s.freeIx := rfl

/-! #### timerTick -/

@[simp] theorem timerTick_v : (s.timerTick).v = s.v := rfl
@[simp] theorem timerTick_i : (s.timerTick).i = s.i := rfl
@[simp] theorem timerTick_pc : (s.timerTick).pc = s.pc := rfl
@[simp] theorem timerTick_sp : (s.timerTick).sp = s.sp := rfl
@[simp] theorem timerTick_stack : (s.timerTick).stack = s.stack := rfl
@[simp] theorem timerTick_dt : (s.timerTick).dt = decrement s.dt := rfl
@[simp] theorem timerTick_st : (s.timerTick).st = decrement s.st := rfl
@[simp] theorem timerTick_mem : (s.timerTick).mem = s.mem := rfl
@[simp] theorem timerTick_fault : (s.timerTick).fault = s.fault := rfl
@[simp] theorem timerTick_report : (s.timerTick).report = s.report := rfl
@[simp] theorem timerTick_input : (s.timerTick).input = s.input := rfl
@[simp] theorem timerTick_display : (s.timerTick).display = s.display := rfl
@[simp] theorem timerTick_host : (s.timerTick).host = s.host := rfl
@[simp] theorem timerTick_freeIx : (s.timerTick).freeIx = s.freeIx := rfl

/-! #### timerTicks -/

@[simp] theorem timerTicks_v (n : Nat) : (s.timerTicks n).v = s.v := rfl
@[simp] theorem timerTicks_i (n : Nat) : (s.timerTicks n).i = s.i := rfl
@[simp] theorem timerTicks_pc (n : Nat) : (s.timerTicks n).pc = s.pc := rfl
@[simp] theorem timerTicks_sp (n : Nat) : (s.timerTicks n).sp = s.sp := rfl
@[simp] theorem timerTicks_stack (n : Nat) : (s.timerTicks n).stack = s.stack := rfl
@[simp] theorem timerTicks_dt (n : Nat) : (s.timerTicks n).dt = decrementBy s.dt n := rfl
@[simp] theorem timerTicks_st (n : Nat) : (s.timerTicks n).st = decrementBy s.st n := rfl
@[simp] theorem timerTicks_mem (n : Nat) : (s.timerTicks n).mem = s.mem := rfl
@[simp] theorem timerTicks_fault (n : Nat) : (s.timerTicks n).fault = s.fault := rfl
@[simp] theorem timerTicks_report (n : Nat) : (s.timerTicks n).report = s.report := rfl
@[simp] theorem timerTicks_input (n : Nat) : (s.timerTicks n).input = s.input := rfl
@[simp] theorem timerTicks_display (n : Nat) : (s.timerTicks n).display = s.display := rfl
@[simp] theorem timerTicks_host (n : Nat) : (s.timerTicks n).host = s.host := rfl
@[simp] theorem timerTicks_freeIx (n : Nat) : (s.timerTicks n).freeIx = s.freeIx := rfl

/-! #### storeBytes -/

@[simp] theorem storeBytes_v (a : Nat) (vs : List Byte) : (s.storeBytes a vs).v = s.v := rfl
@[simp] theorem storeBytes_i (a : Nat) (vs : List Byte) : (s.storeBytes a vs).i = s.i := rfl
@[simp] theorem storeBytes_pc (a : Nat) (vs : List Byte) : (s.storeBytes a vs).pc = s.pc := rfl
@[simp] theorem storeBytes_sp (a : Nat) (vs : List Byte) : (s.storeBytes a vs).sp = s.sp := rfl
@[simp] theorem storeBytes_stack (a : Nat) (vs : List Byte) : (s.storeBytes a vs).stack = s.stack := rfl
@[simp] theorem storeBytes_dt (a : Nat) (vs : List Byte) : (s.storeBytes a vs).dt = s.dt := rfl
@[simp] theorem storeBytes_st (a : Nat) (vs : List Byte) : (s.storeBytes a vs).st = s.st := rfl
@[simp] theorem storeBytes_mem (a : Nat) (vs : List Byte) : (s.storeBytes a vs).mem = s.mem.writeBytes a vs := rfl
@[simp] theorem storeBytes_fault (a : Nat) (vs : List Byte) : (s.storeBytes a vs).fault = s.fault := rfl
@[simp] theorem storeBytes_report (a : Nat) (vs : List Byte) : (s.storeBytes a vs).report = s.report := rfl
@[simp] theorem storeBytes_input (a : Nat) (vs : List Byte) : (s.storeBytes a vs).input = s.input := rfl
@[simp] theorem storeBytes_display (a : Nat) (vs : List Byte) : (s.storeBytes a vs).display = s.display := rfl
@[simp] theorem storeBytes_host (a : Nat) (vs : List Byte) : (s.storeBytes a vs).host = s.host := rfl
@[simp] theorem storeBytes_freeIx (a : Nat) (vs : List Byte) : (s.storeBytes a vs).freeIx = s.freeIx := rfl

/-! #### send -/

@[simp] theorem send_v (cmds : List DisplayCmd) : (s.send cmds).v = s.v := rfl
@[simp] theorem send_i (cmds : List DisplayCmd) : (s.send cmds).i = s.i := rfl
@[simp] theorem send_pc (cmds : List DisplayCmd) : (s.send cmds).pc = s.pc := rfl
@[simp] theorem send_sp (cmds : List DisplayCmd) : (s.send cmds).sp = s.sp := rfl
@[simp] theorem send_stack (cmds : List DisplayCmd) : (s.send cmds).stack = s.stack := rfl
@[simp] theorem send_dt (cmds : List DisplayCmd) : (s.send cmds).dt = s.dt := rfl
@[simp] theorem send_st (cmds : List DisplayCmd) : (s.send cmds).st = s.st := rfl
@[simp] theorem send_mem (cmds : List DisplayCmd) : (s.send cmds).mem = s.mem := rfl
@[simp] theorem send_fault (cmds : List DisplayCmd) : (s.send cmds).fault = s.fault := rfl
@[simp] theorem send_report (cmds : List DisplayCmd) : (s.send cmds).report = s.report := rfl
@[simp] theorem send_input (cmds : List DisplayCmd) : (s.send cmds).input = s.input := rfl
@[simp] theorem send_display (cmds : List DisplayCmd) : (s.send cmds).display = s.display ++ (if s.input.sink.isSome then cmds else []) := rfl
@[simp] theorem send_host (cmds : List DisplayCmd) : (s.send cmds).host = s.host := rfl
@[simp] theorem send_freeIx (cmds : List DisplayCmd) : (s.send cmds).freeIx = s.freeIx := rfl

/-! #### halt -/

@[simp] theorem halt_v : (s.halt).v = s.v := rfl
@[simp] theorem halt_i : (s.halt).i = s.i := rfl
@[simp] theorem halt_pc : (s.halt).pc = s.pc := rfl
@[simp] theorem halt_sp : (s.halt).sp = s.sp := rfl
@[simp] theorem halt_stack : (s.halt).stack = s.stack := rfl
@[simp] theorem halt_dt : (s.halt).dt = s.dt := rfl
@[simp] theorem halt_st : (s.halt).st = s.st := rfl
@[simp] theorem halt_mem : (s.halt).mem = s.mem := rfl
@[simp] theorem halt_fault : (s.halt).fault = s.fault := rfl
@[simp] theorem halt_report : (s.halt).report = some .halted := rfl
@[simp] theorem halt_input : (s.halt).input = s.input := rfl
@[simp] theorem halt_display : (s.halt).display = s.display := rfl
@[simp] theorem halt_host : (s.halt).host = s.host := rfl
@[simp] theorem halt_freeIx : (s.halt).freeIx = s.freeIx := rfl

/-! #### raise -/

@[simp] theorem raise_v (f : Fatal) : (s.raise f).v = s.v := rfl
@[simp] theorem raise_i (f : Fatal) : (s.raise f).i = s.i := rfl
@[simp] theorem raise_pc (f : Fatal) : (s.raise f).pc = s.pc := rfl
@[simp] theorem raise_sp (f : Fatal) : (s.raise f).sp = s.sp := rfl
@[simp] theorem raise_stack (f : Fatal) : (s.raise f).stack = s.stack := rfl
@[simp] theorem raise_dt (f : Fatal) : (s.raise f).dt = s.dt := rfl
@[simp] theorem raise_st (f : Fatal) : (s.raise f).st = s.st := rfl
@[simp] theorem raise_mem (f : Fatal) : (s.raise f).mem = s.mem := rfl
@[simp] theorem raise_fault (f : Fatal) : (s.raise f).fault = some f := rfl
@[simp] theorem raise_report (f : Fatal) : (s.raise f).report = some .fatal := rfl
@[simp] theorem raise_input (f : Fatal) : (s.raise f).input = s.input := rfl
@[simp] theorem raise_display (f : Fatal) : (s.raise f).display = s.display := rfl
@[simp] theorem raise_host (f : Fatal) : (s.raise f).host = s.host := rfl
@[simp] theorem raise_freeIx (f : Fatal) : (s.raise f).freeIx = s.freeIx := rfl

/-! #### advance -/

@[simp] theorem advance_v : (s.advance).v = s.v := rfl
@[simp] theorem advance_i : (s.advance).i = s.i := rfl
@[simp] theorem advance_pc : (s.advance).pc = s.pc + 2 := rfl
@[simp] theorem advance_sp : (s.advance).sp = s.sp := rfl
@[simp] theorem advance_stack : (s.advance).stack = s.stack := rfl
@[simp] theorem advance_dt : (s.advance).dt = s.dt := rfl
@[simp] theorem advance_st : (s.advance).st = s.st := rfl
@[simp] theorem advance_mem : (s.advance).mem = s.mem := rfl
@[simp] theorem advance_fault : (s.advance).fault = s.fault := rfl
@[simp] theorem advance_report : (s.advance).report = some .continued := rfl
@[simp] theorem advance_input : (s.advance).input = s.input := rfl
@[simp] theorem advance_display : (s.advance).display = s.display := rfl
@[simp] theorem advance_host : (s.advance).host = s.host := rfl
@[simp] theorem advance_freeIx : (s.advance).freeIx = s.freeIx := rfl

end Sys2Proof.Machine
end

