-- ==== Sys2Proof/Laws/Ops.lean ====
section
/-! SUPPORT. What each shared operation does, said once, in the terms claims use: reading a register, a byte, a key. -/

namespace Sys2Proof.Machine

variable (s : State)

/-! #### Reading registers -/

theorem reg_eq (x : Reg) : s.reg x = s.v[x] := rfl

/-- A read depends on the registers alone. -/
theorem reg_congr {s t : State} (h : t.v = s.v) (x : Reg) : t.reg x = s.reg x := by
  simp [State.reg, h]

/-- A register reads as last written; the others are unchanged (10_state.md R10). -/
@[simp] theorem reg_setReg (x : Reg) (b : Byte) (z : Reg) :
    (s.setReg x b).reg z = if z = x then b else s.reg z := by
  simp only [State.reg, State.setReg, Fin.getElem_fin, Vector.getElem_set]
  by_cases h : z = x
  · simp [h]
  · rw [if_neg (fun e => h (Fin.ext e.symm)), if_neg h]

@[simp] theorem setFlag_eq (b : Byte) : s.setFlag b = s.setReg flagReg b := rfl

/-- A block load reaches registers 0 to `x` and no other (43_memory_address.md R120). -/
@[simp] theorem reg_setRegsUpTo (x : Reg) (f : Nat → Byte) (z : Reg) :
    (s.setRegsUpTo x f).reg z = if z ≤ x then f z.val else s.reg z := by
  simp only [State.reg, State.setRegsUpTo, Fin.getElem_fin, Vector.getElem_ofFn, Fin.le_def]

@[simp] theorem reg_setI (a : Addr) (z : Reg) : (s.setI a).reg z = s.reg z := rfl
@[simp] theorem reg_setPc (a : Addr) (z : Reg) : (s.setPc a).reg z = s.reg z := rfl
@[simp] theorem reg_skipIf (c : Bool) (z : Reg) : (s.skipIf c).reg z = s.reg z := rfl
@[simp] theorem reg_push (a : Addr) (room : s.sp.val < 16) (z : Reg) :
    (s.push a room).reg z = s.reg z := rfl
@[simp] theorem reg_popPc (used : 0 < s.sp.val) (z : Reg) : (s.popPc used).reg z = s.reg z := rfl
@[simp] theorem reg_setDt (b : Byte) (z : Reg) : (s.setDt b).reg z = s.reg z := rfl
@[simp] theorem reg_setSt (b : Byte) (z : Reg) : (s.setSt b).reg z = s.reg z := rfl
@[simp] theorem reg_timerTick (z : Reg) : s.timerTick.reg z = s.reg z := rfl
@[simp] theorem reg_timerTicks (n : Nat) (z : Reg) : (s.timerTicks n).reg z = s.reg z := rfl
@[simp] theorem reg_storeBytes (a : Nat) (vs : List Byte) (z : Reg) :
    (s.storeBytes a vs).reg z = s.reg z := rfl
@[simp] theorem reg_send (cmds : List DisplayCmd) (z : Reg) : (s.send cmds).reg z = s.reg z := rfl
@[simp] theorem reg_halt (z : Reg) : s.halt.reg z = s.reg z := rfl
@[simp] theorem reg_raise (f : Fatal) (z : Reg) : (s.raise f).reg z = s.reg z := rfl
@[simp] theorem reg_advance (z : Reg) : s.advance.reg z = s.reg z := rfl

/-! #### Reading memory -/

/-- A read depends on memory alone. -/
theorem byteAt_congr {s t : State} (h : t.mem = s.mem) (a : Nat) : t.byteAt a = s.byteAt a := by
  simp [State.byteAt, h]

/-- What memory reads as after a run of stores (20_memory.md R31). -/
theorem byteAt_storeBytes (wf : s.mem.wf) {a : Nat} {vs : List Byte}
    (h : a + vs.length ≤ Config.memSize) (c : Nat) :
    (s.storeBytes a vs).byteAt c =
      if a ≤ c ∧ c < a + vs.length then vs.getD (c - a) 0 else s.byteAt c :=
  Memory.read_writeBytes wf h c

@[simp] theorem byteAt_setReg (x : Reg) (b : Byte) (a : Nat) :
    (s.setReg x b).byteAt a = s.byteAt a := rfl
@[simp] theorem byteAt_setRegsUpTo (x : Reg) (f : Nat → Byte) (a : Nat) :
    (s.setRegsUpTo x f).byteAt a = s.byteAt a := rfl
@[simp] theorem byteAt_setI (b : Addr) (a : Nat) : (s.setI b).byteAt a = s.byteAt a := rfl
@[simp] theorem byteAt_setPc (b : Addr) (a : Nat) : (s.setPc b).byteAt a = s.byteAt a := rfl
@[simp] theorem byteAt_skipIf (c : Bool) (a : Nat) : (s.skipIf c).byteAt a = s.byteAt a := rfl
@[simp] theorem byteAt_push (b : Addr) (room : s.sp.val < 16) (a : Nat) :
    (s.push b room).byteAt a = s.byteAt a := rfl
@[simp] theorem byteAt_popPc (used : 0 < s.sp.val) (a : Nat) :
    (s.popPc used).byteAt a = s.byteAt a := rfl
@[simp] theorem byteAt_setDt (b : Byte) (a : Nat) : (s.setDt b).byteAt a = s.byteAt a := rfl
@[simp] theorem byteAt_setSt (b : Byte) (a : Nat) : (s.setSt b).byteAt a = s.byteAt a := rfl
@[simp] theorem byteAt_timerTick (a : Nat) : s.timerTick.byteAt a = s.byteAt a := rfl
@[simp] theorem byteAt_timerTicks (n a : Nat) : (s.timerTicks n).byteAt a = s.byteAt a := rfl
@[simp] theorem byteAt_send (cmds : List DisplayCmd) (a : Nat) :
    (s.send cmds).byteAt a = s.byteAt a := rfl
@[simp] theorem byteAt_halt (a : Nat) : s.halt.byteAt a = s.byteAt a := rfl
@[simp] theorem byteAt_raise (f : Fatal) (a : Nat) : (s.raise f).byteAt a = s.byteAt a := rfl
@[simp] theorem byteAt_advance (a : Nat) : s.advance.byteAt a = s.byteAt a := rfl

/-- The lengths of the byte lists the storing instructions write. -/
@[simp] theorem decimalDigits_length (b : Byte) : (decimalDigits b).length = 3 := rfl

@[simp] theorem regsUpTo_length (x : Reg) : (s.regsUpTo x).length = x.val + 1 := by
  have := x.isLt
  simp only [State.regsUpTo, List.length_take, Vector.length_toList]
  omega

/-- The `k`-th byte CTR stores is register `k` (43_memory_address.md R119). -/
theorem regsUpTo_getD (x : Reg) {k : Nat} (hk : k ≤ x.val) :
    (s.regsUpTo x).getD k 0 = s.reg ⟨k, by omega⟩ := by
  have := x.isLt
  simp only [State.regsUpTo, State.reg]
  rw [List.getD_eq_getElem _ _ (by simp; omega)]
  simp

theorem bytesOfWords_length (ws : List Word) : (bytesOfWords ws).length = 2 * ws.length := by
  induction ws with
  | nil => rfl
  | cons w ws ih => simp_all [bytesOfWords]; omega

/-! #### The bounds check -/

/-- The check passes exactly when every byte of the access is in the address space (20_memory.md R32). -/
theorem firstOutside_eq_none (base n : Nat) :
    firstOutside base n = none ↔ n = 0 ∨ base + n ≤ Config.memSize := by
  unfold firstOutside
  split_ifs with h0 h1 <;> simp <;> omega

/-- The address recorded is the lowest of the access above 4095 (60_exceptions.md R160). -/
theorem firstOutside_eq_some {base n a : Nat} (h : firstOutside base n = some a) :
    0 < n ∧ Config.memSize < base + n ∧ a = max base Config.memSize := by
  unfold firstOutside at h
  split_ifs at h with h0 h1
  simp only [Option.some.injEq] at h
  exact ⟨by omega, by omega, h.symm⟩

/-- A guarded access in range runs. -/
theorem guarded_inRange {n : Nat} {k : State} (h : n = 0 ∨ s.i.toNat + n ≤ Config.memSize) :
    s.guarded n k = .next k := by
  simp [State.guarded, State.rangeFatal, (firstOutside_eq_none _ _).2 h]

/-- A guarded access out of range takes the fatal condition, whatever it would have done. -/
theorem guarded_outOfRange {n : Nat} {k : State} (hn : 0 < n) (h : Config.memSize < s.i.toNat + n) :
    s.guarded n k = .next (s.raise
      (.memoryOutOfRange (BitVec.ofNat 16 (max s.i.toNat Config.memSize)) s.instrAddr)) := by
  have : firstOutside s.i.toNat n = some (max s.i.toNat Config.memSize) := by
    unfold firstOutside
    rw [if_neg (by omega), if_neg (by omega)]
  simp [State.guarded, State.rangeFatal, this]

/-- Everything a guarded access can do. -/
theorem guarded_cases (n : Nat) (k : State) :
    (n = 0 ∨ s.i.toNat + n ≤ Config.memSize) ∧ s.guarded n k = .next k ∨
    (0 < n ∧ Config.memSize < s.i.toNat + n) ∧ s.guarded n k = .next (s.raise
      (.memoryOutOfRange (BitVec.ofNat 16 (max s.i.toNat Config.memSize)) s.instrAddr)) := by
  by_cases h : n = 0 ∨ s.i.toNat + n ≤ Config.memSize
  · exact .inl ⟨h, guarded_inRange s h⟩
  · exact .inr ⟨by omega, guarded_outOfRange s (by omega) (by omega)⟩

/-! #### Flags and timers -/

theorem flagByte_toNat (b : Bool) : (flagByte b).toNat = if b then 1 else 0 := by
  cases b <;> rfl

/-- The sum and its carry make the true sum (41_load_arithmetic.md R101). -/
theorem carryFlag_law (a b : Byte) :
    (a + b).toNat + 256 * (carryFlag a b).toNat = a.toNat + b.toNat := by
  have := a.isLt
  have := b.isLt
  rw [carryFlag, flagByte_toNat, BitVec.toNat_add]
  split_ifs with h <;> simp only [decide_eq_true_eq] at h <;> omega

/-- The difference and not-borrow make the true difference (41_load_arithmetic.md R101). -/
theorem notBorrowFlag_law (p q : Byte) :
    (p - q).toNat + q.toNat = p.toNat + 256 * (1 - (notBorrowFlag p q).toNat) := by
  have := p.isLt
  have := q.isLt
  rw [notBorrowFlag, flagByte_toNat, BitVec.toNat_sub]
  split_ifs with h <;> simp only [decide_eq_true_eq] at h <;> omega

/-- A right shift and the bit it moves out make the old value (41_load_arithmetic.md R98). -/
theorem lowBitFlag_law (a : Byte) : 2 * (a >>> 1).toNat + (lowBitFlag a).toNat = a.toNat := by
  revert a; decide

/-- A left shift and the bit it moves out make twice the old value (41_load_arithmetic.md R100). -/
theorem highBitFlag_law (a : Byte) :
    (a <<< 1).toNat + 256 * (highBitFlag a).toNat = 2 * a.toNat := by
  revert a; decide

theorem decrement_toNat (t : Byte) : (decrement t).toNat = t.toNat - 1 := by
  revert t; decide

theorem decrementBy_toNat (t : Byte) (n : Nat) : (decrementBy t n).toNat = t.toNat - n := by
  have := t.isLt
  simp [decrementBy]
  omega

/-- `n` TimerTick steps at once are `n` single steps (45_timers.md R148). -/
theorem timerTicks_succ (n : Nat) : s.timerTicks (n + 1) = (s.timerTicks n).timerTick := by
  have h (t : Byte) : decrementBy t (n + 1) = decrement (decrementBy t n) :=
    BitVec.eq_of_toNat_eq (by rw [decrement_toNat, decrementBy_toNat, decrementBy_toNat]; omega)
  simp [State.timerTicks, State.timerTick, h]

@[simp] theorem timerTicks_zero : s.timerTicks 0 = s := by
  simp [State.timerTicks, decrementBy]

/-! #### The key input -/

/-- The key WTP captures is pressed and no lower one is (44_display_input.md R136). -/
theorem lowestKey_eq_some {k : Nat} :
    s.lowestKey = some k ↔ k < 16 ∧ s.keyDown k = true ∧ ∀ j < k, s.keyDown j = false := by
  simp only [State.lowestKey, List.find?_range_eq_some, Bool.not_eq_true', List.mem_range]
  tauto

/-- WTP waits exactly when no key is pressed (44_display_input.md R136). -/
theorem lowestKey_eq_none : s.lowestKey = none ↔ ∀ k < 16, s.keyDown k = false := by
  simp [State.lowestKey]

end Sys2Proof.Machine
end

