-- ==== Sys2Proof/Laws/Step.lean ====
section
/-! SUPPORT. What each instruction does, as one equation over the shared operations, and what a cycle, a tick and a step can do, said once. -/

namespace Sys2Proof.Machine

variable (s : State)

/-! #### One equation per instruction -/

@[simp] theorem exec_ext :
    exec .ext s = .next s.halt := rfl

@[simp] theorem exec_jmp (nnn : Addr12) :
    exec (.jmp nnn) s = .next (s.setPc (zext16 nnn)) := rfl

@[simp] theorem exec_sev (x : Reg) (kk : Byte) :
    exec (.sev x kk) s = .next (s.skipIf (s.reg x == kk)) := rfl

@[simp] theorem exec_snev (x : Reg) (kk : Byte) :
    exec (.snev x kk) s = .next (s.skipIf (s.reg x != kk)) := rfl

@[simp] theorem exec_ser (x : Reg) (y : Reg) :
    exec (.ser x y) s = .next (s.skipIf (s.reg x == s.reg y)) := rfl

@[simp] theorem exec_sner (x : Reg) (y : Reg) :
    exec (.sner x y) s = .next (s.skipIf (s.reg x != s.reg y)) := rfl

@[simp] theorem exec_jmpr (nnn : Addr12) :
    exec (.jmpr nnn) s = .next (s.setPc (s.indexedTarget nnn)) := rfl

@[simp] theorem exec_stv (x : Reg) (kk : Byte) :
    exec (.stv x kk) s = .next (s.setReg x kk) := rfl

@[simp] theorem exec_str (x : Reg) (y : Reg) :
    exec (.str x y) s = .next (s.setReg x (s.reg y)) := rfl

@[simp] theorem exec_addv (x : Reg) (kk : Byte) :
    exec (.addv x kk) s = .next ((s.setReg x (s.reg x + kk)).setReg flagReg
      (carryFlag (s.reg x) kk)) := rfl

@[simp] theorem exec_add (x : Reg) (y : Reg) :
    exec (.add x y) s = .next ((s.setReg x (s.reg x + s.reg y)).setReg flagReg
      (carryFlag (s.reg x) (s.reg y))) := rfl

@[simp] theorem exec_or (x : Reg) (y : Reg) :
    exec (.or x y) s = .next (s.setReg x (s.reg x ||| s.reg y)) := rfl

@[simp] theorem exec_and (x : Reg) (y : Reg) :
    exec (.and x y) s = .next (s.setReg x (s.reg x &&& s.reg y)) := rfl

@[simp] theorem exec_xor (x : Reg) (y : Reg) :
    exec (.xor x y) s = .next (s.setReg x (s.reg x ^^^ s.reg y)) := rfl

@[simp] theorem exec_sub (x : Reg) (y : Reg) :
    exec (.sub x y) s = .next ((s.setReg x (s.reg x - s.reg y)).setReg flagReg
      (notBorrowFlag (s.reg x) (s.reg y))) := rfl

@[simp] theorem exec_subr (x : Reg) (y : Reg) :
    exec (.subr x y) s = .next ((s.setReg x (s.reg y - s.reg x)).setReg flagReg
      (notBorrowFlag (s.reg y) (s.reg x))) := rfl

@[simp] theorem exec_rsh (x : Reg) :
    exec (.rsh x) s = .next ((s.setReg flagReg (lowBitFlag (s.reg x))).setReg x
      ((s.setReg flagReg (lowBitFlag (s.reg x))).reg x >>> 1)) := rfl

@[simp] theorem exec_lsh (x : Reg) :
    exec (.lsh x) s = .next ((s.setReg flagReg (highBitFlag (s.reg x))).setReg x
      ((s.setReg flagReg (highBitFlag (s.reg x))).reg x <<< 1)) := rfl

@[simp] theorem exec_rnd (x : Reg) (kk : Byte) :
    exec (.rnd x kk) s = .next (s.setReg x (s.input.rnd &&& kk)) := rfl

@[simp] theorem exec_sti (nnn : Addr12) :
    exec (.sti nnn) s = .next (s.setI (zext16 nnn)) := rfl

@[simp] theorem exec_addi (x : Reg) :
    exec (.addi x) s = .next (s.setI (s.i + byteToAddr (s.reg x))) := rfl

@[simp] theorem exec_stis (x : Reg) :
    exec (.stis x) s = .next (s.setI (glyphAddr (s.reg x))) := rfl

@[simp] theorem exec_bcd (x : Reg) :
    exec (.bcd x) s = s.guarded 3 (s.storeBytes s.i.toNat (decimalDigits (s.reg x))) := rfl

@[simp] theorem exec_ctr (x : Reg) :
    exec (.ctr x) s = s.guarded (x.val + 1) (s.storeBytes s.i.toNat (s.regsUpTo x)) := rfl

@[simp] theorem exec_cfr (x : Reg) :
    exec (.cfr x) s = s.guarded (x.val + 1) (s.setRegsUpTo x fun k => s.byteAt (s.i.toNat + k)) := rfl

@[simp] theorem exec_cld :
    exec .cld s = .next (s.send [.clear]) := rfl

@[simp] theorem exec_drw (x : Reg) (y : Reg) (d : Rows) :
    exec (.drw x y d) s = s.guarded d.val ((s.send (s.spriteRows (s.reg x) (s.reg y) d)).setReg flagReg
      (flagByte (s.collisionOf d))) := rfl

@[simp] theorem exec_sep (x : Reg) :
    exec (.sep x) s = s.skipOnKey x true := rfl

@[simp] theorem exec_senp (x : Reg) :
    exec (.senp x) s = s.skipOnKey x false := rfl

@[simp] theorem exec_strd (x : Reg) :
    exec (.strd x) s = .next (s.setReg x s.dt) := rfl

@[simp] theorem exec_stdr (x : Reg) :
    exec (.stdr x) s = .next (s.setDt (s.reg x)) := rfl

@[simp] theorem exec_strs (x : Reg) :
    exec (.strs x) s = .next (s.setSt (s.reg x)) := rfl

theorem exec_ret_of_used (used : 0 < s.sp.val) : exec .ret s = .next (s.popPc used) := by
  simp only [exec, execRet, dif_pos used]

theorem exec_ret_of_empty (empty : s.sp.val = 0) :
    exec .ret s = .next (s.raise (.stackUnderflow s.instrAddr)) := by
  simp only [exec, execRet, dif_neg (show ¬ 0 < s.sp.val by omega)]

theorem exec_cll_of_room (nnn : Addr12) (room : s.sp.val < 16) :
    exec (.cll nnn) s = .next ((s.push s.pc room).setPc (zext16 nnn)) := by
  simp only [exec, execCll, dif_pos room]

theorem exec_cll_of_full (nnn : Addr12) (full : s.sp.val = 16) :
    exec (.cll nnn) s = .next (s.raise (.stackOverflow s.instrAddr)) := by
  simp only [exec, execCll, dif_neg (show ¬ s.sp.val < 16 by omega)]

theorem skipOnKey_of_index (x : Reg) (wanted : Bool) (h : (s.reg x).toNat ≤ 15) :
    s.skipOnKey x wanted = .next (s.skipIf (s.keyDown (s.reg x).toNat == wanted)) := by
  rw [State.skipOnKey, if_neg (by omega)]

theorem skipOnKey_of_badIndex (x : Reg) (wanted : Bool) (h : 15 < (s.reg x).toNat) :
    s.skipOnKey x wanted = .next (s.raise (.invalidKeyIndex (s.reg x) s.instrAddr)) := by
  rw [State.skipOnKey, if_pos h]

theorem exec_wtp_of_key (x : Reg) {k : Nat} (h : s.lowestKey = some k) :
    exec (.wtp x) s = .next (s.setReg x (BitVec.ofNat 8 k)) := by
  simp only [exec, execWtp, h]

theorem exec_wtp_of_none (x : Reg) (h : s.lowestKey = none) :
    exec (.wtp x) s = .next (s.setPc s.instrAddr) := by
  simp only [exec, execWtp, h]

/-! #### The fetch, the cycle, the tick, the step -/

theorem fetch_inRange (h : s.pc.toNat < 4095) : s.fetch = .ok (s.wordAt s.pc.toNat) := by
  have : firstOutside s.pc.toNat 2 = none :=
    (firstOutside_eq_none _ _).2 (.inr (by have hm : Config.memSize = 4096 := rfl; omega))
  simp [State.fetch, this]

theorem fetch_outOfRange (h : 4095 ≤ s.pc.toNat) :
    s.fetch = .error (.memoryOutOfRange (BitVec.ofNat 16 (max s.pc.toNat 4096)) s.pc) := by
  have : firstOutside s.pc.toNat 2 = some (max s.pc.toNat 4096) := by
    have hm : Config.memSize = 4096 := rfl
    rw [firstOutside, if_neg (by omega), if_neg (by omega), hm]
  simp [State.fetch, this]

/-- Everything one fetch-decode-execute cycle can do (30_encoding.md R50, R52). -/
theorem cycle_cases :
    (4095 ≤ s.pc.toNat ∧ cycle s = .next (s.raise
      (.memoryOutOfRange (BitVec.ofNat 16 (max s.pc.toNat 4096)) s.pc))) ∨
    (s.pc.toNat < 4095 ∧ select (s.wordAt s.pc.toNat) = none ∧
      cycle s = .next (s.advance.raise (.invalidInstruction (s.wordAt s.pc.toNat) s.pc))) ∨
    (s.pc.toNat < 4095 ∧ ∃ i, decode (s.wordAt s.pc.toNat) = .ok i ∧ cycle s = exec i s.advance) := by
  by_cases h : s.pc.toNat < 4095
  · right
    simp only [cycle, fetch_inRange s h, runWord, decode]
    cases hs : select (s.wordAt s.pc.toNat) with
    | none => exact .inl ⟨h, rfl, rfl⟩
    | some i => exact .inr ⟨h, i, rfl, rfl⟩
  · left
    exact ⟨by omega, by simp only [cycle, fetch_outOfRange s (by omega)]⟩

/-- A tick of a faulted machine is ignored (60_exceptions.md R161). -/
theorem tick_faulted (inp : TickInput) {f : Fatal} (h : s.fault = some f) : tick inp s = .next s := by
  simp only [tick, h]

/-- A tick of a machine that is not faulted is one cycle with the inputs sampled. -/
theorem tick_clear (inp : TickInput) (h : s.fault = none) : tick inp s = cycle { s with input := inp } := by
  simp only [tick, h]

theorem step_free (h : s.host = []) : step s = freeTick s := by simp only [step, h]

theorem step_tick {inp : TickInput} {rest : List HostAct} (h : s.host = .tick inp :: rest) :
    step s = tick inp { s with host := rest } := by simp only [step, h]

theorem step_timerTick {rest : List HostAct} (h : s.host = .timerTick :: rest) :
    step s = .next { s with host := rest }.timerTick := by simp only [step, h]

theorem step_reset {rest : List HostAct} (h : s.host = .reset :: rest) :
    step s = .next { s with host := rest }.hostReset := by simp only [step, h]

theorem step_load {image : List Word} {rest : List HostAct} (h : s.host = .load image :: rest) :
    step s = hostLoad image { s with host := rest } := by simp only [step, h]

/-- Everything a step that answers a next state can be: a tick, a TimerTick, a reset or a load. -/
theorem step_cases {t : State} (h : step s = .next t) :
    (s.host = [] ∧ tick (freeInput s.freeIx)
      { s.timerTicks (Config.freeTimerSteps s.freeIx) with freeIx := s.freeIx + 1 } = .next t) ∨
    (∃ inp rest, s.host = .tick inp :: rest ∧ tick inp { s with host := rest } = .next t) ∨
    (∃ rest, s.host = .timerTick :: rest ∧ t = { s with host := rest }.timerTick) ∨
    (∃ rest, s.host = .reset :: rest ∧ t = { s with host := rest }.hostReset) ∨
    (∃ image rest, s.host = .load image :: rest ∧ s.report = none ∧ imageFits image = true ∧
      t = { s with host := rest }.loadImage image) := by
  match hh : s.host with
  | [] => exact .inl ⟨rfl, by rwa [step_free s hh] at h⟩
  | .tick inp :: rest => exact .inr (.inl ⟨inp, rest, rfl, by rwa [step_tick s hh] at h⟩)
  | .timerTick :: rest =>
    rw [step_timerTick s hh] at h
    injection h with h
    exact .inr (.inr (.inl ⟨rest, rfl, h.symm⟩))
  | .reset :: rest =>
    rw [step_reset s hh] at h
    injection h with h
    exact .inr (.inr (.inr (.inl ⟨rest, rfl, h.symm⟩)))
  | .load image :: rest =>
    rw [step_load s hh, hostLoad] at h
    split at h
    · cases h
    · split at h
      · injection h with h
        exact .inr (.inr (.inr (.inr ⟨image, rest, rfl, ‹_›, ‹_›, h.symm⟩)))
      · cases h

end Sys2Proof.Machine
end

