-- ==== Sys2Proof/Laws/Exec.lean ====
section
/-! SUPPORT. The inversion of `exec`: every way an instruction that can be fatal, or that branches, can end. Every rule over all instructions is proved from it. -/

namespace Sys2Proof.Machine

theorem memSize_eq : Config.memSize = 4096 := rfl

/-- The address a fatal access at `I` records (60_exceptions.md R160). -/
theorem recorded_address (a : Addr) :
    BitVec.ofNat 16 (max a.toNat 4096) = if a.toNat < 4096 then 4096 else a := by
  split
  · rw [max_eq_right (by omega)]; rfl
  · rw [max_eq_left (by omega)]; simp

/-- The inversion of a guarded access: it runs in range, or it raises what `firstOutside` records. -/
theorem guarded_elim {P : State → Prop} {s k t : State} {n : Nat} (h : s.guarded n k = .next t)
    (inRange : n = 0 ∨ s.i.toNat + n ≤ 4096 → P k)
    (outOfRange : 0 < n → 4096 < s.i.toNat + n →
      P (s.raise (.memoryOutOfRange (if s.i.toNat < 4096 then 4096 else s.i) s.instrAddr))) : P t := by
  rcases guarded_cases s n k with ⟨h0, hk⟩ | ⟨h0, hk⟩ <;> rw [hk] at h <;> injection h with h <;>
    subst h <;> rw [memSize_eq] at *
  · exact inRange h0
  · rw [recorded_address]; exact outOfRange h0.1 h0.2

/-- Every way an instruction can end. The instructions that branch on the state come each with its branches; the fatal branches
are one case; for the others `t` is the state of the instruction's own equation (Laws/Step.lean). -/
theorem exec_elim {P : State → Prop} {i : Instr} {s t : State} (h : exec i s = .next t)
    (fatal : ∀ f, raises i s = some f → P (s.raise f))
    (ret : ∀ used : 0 < s.sp.val, i = .ret → P (s.popPc used))
    (cll : ∀ nnn, ∀ room : s.sp.val < 16, i = .cll nnn → P ((s.push s.pc room).setPc (zext16 nnn)))
    (bcd : ∀ x, i = .bcd x → s.i.toNat + 3 ≤ 4096 →
      P (s.storeBytes s.i.toNat (decimalDigits (s.reg x))))
    (ctr : ∀ x, i = .ctr x → s.i.toNat + (x.val + 1) ≤ 4096 →
      P (s.storeBytes s.i.toNat (s.regsUpTo x)))
    (cfr : ∀ x, i = .cfr x → s.i.toNat + (x.val + 1) ≤ 4096 →
      P (s.setRegsUpTo x fun k => s.byteAt (s.i.toNat + k)))
    (drw : ∀ x y d, i = .drw x y d → d.val = 0 ∨ s.i.toNat + d.val ≤ 4096 →
      P ((s.send (s.spriteRows (s.reg x) (s.reg y) d)).setReg flagReg (flagByte (s.collisionOf d))))
    (sep : ∀ x, i = .sep x → (s.reg x).toNat ≤ 15 → P (s.skipIf (s.keyDown (s.reg x).toNat == true)))
    (senp : ∀ x, i = .senp x → (s.reg x).toNat ≤ 15 →
      P (s.skipIf (s.keyDown (s.reg x).toNat == false)))
    (captured : ∀ x k, i = .wtp x → s.lowestKey = some k → P (s.setReg x (BitVec.ofNat 8 k)))
    (waits : ∀ x, i = .wtp x → s.lowestKey = none → P (s.setPc s.instrAddr))
    (plain : i.mnemonic ∉ [.ret, .cll, .bcd, .ctr, .cfr, .drw, .sep, .senp, .wtp] → P t) : P t := by
  cases i
  case ret =>
    by_cases used : 0 < s.sp.val
    · rw [exec_ret_of_used s used] at h
      injection h with h; subst h; exact ret used rfl
    · rw [exec_ret_of_empty s (by omega)] at h
      injection h with h; subst h
      exact fatal _ (if_pos (by omega))
  case cll nnn =>
    by_cases room : s.sp.val < 16
    · rw [exec_cll_of_room s nnn room] at h
      injection h with h; subst h; exact cll nnn room rfl
    · have := s.sp.isLt
      rw [exec_cll_of_full s nnn (by omega)] at h
      injection h with h; subst h
      exact fatal _ (if_pos (by omega))
  case bcd x =>
    exact guarded_elim h (fun h0 => bcd x rfl (by omega)) fun _ h0 =>
      fatal _ (if_neg (by omega))
  case ctr x =>
    exact guarded_elim h (fun h0 => ctr x rfl (by omega)) fun _ h0 =>
      fatal _ (if_neg (by omega))
  case cfr x =>
    exact guarded_elim h (fun h0 => cfr x rfl (by omega)) fun _ h0 =>
      fatal _ (if_neg (by omega))
  case drw x y d =>
    exact guarded_elim h (fun h0 => drw x y d rfl h0) fun hd h0 =>
      fatal _ ((if_neg (by omega)).trans (if_neg (by omega)))
  case sep x =>
    by_cases h0 : (s.reg x).toNat ≤ 15
    · rw [exec_sep, skipOnKey_of_index _ _ _ h0] at h
      injection h with h; subst h; exact sep x rfl h0
    · rw [exec_sep, skipOnKey_of_badIndex _ _ _ (by omega)] at h
      injection h with h; subst h; exact fatal _ (if_pos (by omega))
  case senp x =>
    by_cases h0 : (s.reg x).toNat ≤ 15
    · rw [exec_senp, skipOnKey_of_index _ _ _ h0] at h
      injection h with h; subst h; exact senp x rfl h0
    · rw [exec_senp, skipOnKey_of_badIndex _ _ _ (by omega)] at h
      injection h with h; subst h; exact fatal _ (if_pos (by omega))
  case wtp x =>
    cases hl : s.lowestKey with
    | none =>
      rw [exec_wtp_of_none s x hl] at h
      injection h with h; subst h; exact waits x rfl hl
    | some k =>
      rw [exec_wtp_of_key s x hl] at h
      injection h with h; subst h; exact captured x k rfl hl
  all_goals exact plain (by simp [Instr.mnemonic])

/-! #### Claims depend on the fields they read -/

theorem inv_congr {s t : State} (h : MachineInv s) (mem : t.mem = s.mem) (pc : t.pc = s.pc)
    (stack : t.stack = s.stack) (report : t.report = s.report) (fault : t.fault = s.fault) : MachineInv t := by
  simpa [MachineInv, mem, pc, stack, report, fault] using h

theorem evenAddresses_congr {s t : State} (h : EvenAddresses s) (pc : t.pc = s.pc) (sp : t.sp = s.sp)
    (stack : t.stack = s.stack) : EvenAddresses t := by
  simpa [EvenAddresses, pc, sp, stack] using h

theorem keepsAllBut_refl (c : Changes) (s : State) : KeepsAllBut c s s := by
  simp [KeepsAllBut]

end Sys2Proof.Machine
end

