-- ==== Sys2Proof/Laws/PerInstr.lean ====
section
/-! SUPPORT. Per instruction: its encoding is selected by its own row of the opcode table (30_encoding.md R55, R63). -/

namespace Sys2Proof

theorem wordXYD_and_F00F (g : Nibble) (x y : Reg) (d : Nibble) :
    wordXYD g x y d &&& 0xF00F = g ++ 0#8 ++ d := by
  have h : (0xF00F : Word) = 15#4 ++ 0#4 ++ 0#4 ++ 15#4 := by decide
  have e : ∀ a : Nibble, a &&& 15#4 = a := by decide
  rw [h, wordXYD, BitVec.and_append, BitVec.and_append, BitVec.and_append, e, e,
    BitVec.and_zero, BitVec.and_zero]
  congr 1
  ext k hk
  simp only [BitVec.getElem_append]
  grind

theorem wordXYD_and_F000 (g : Nibble) (x y : Reg) (d : Nibble) :
    wordXYD g x y d &&& 0xF000 = g ++ 0#12 := by
  have h : (0xF000 : Word) = 15#4 ++ 0#4 ++ 0#4 ++ 0#4 := by decide
  have e : ∀ a : Nibble, a &&& 15#4 = a := by decide
  rw [h, wordXYD, BitVec.and_append, BitVec.and_append, BitVec.and_append, e,
    BitVec.and_zero, BitVec.and_zero, BitVec.and_zero]
  ext k hk
  simp only [BitVec.getElem_append]
  grind

theorem wordXKK_and_F000 (g : Nibble) (x : Reg) (kk : Byte) :
    wordXKK g x kk &&& 0xF000 = g ++ 0#12 := by
  have h : (0xF000 : Word) = 15#4 ++ 0#4 ++ 0#8 := by decide
  have e : ∀ a : Nibble, a &&& 15#4 = a := by decide
  rw [h, wordXKK, BitVec.and_append, BitVec.and_append, e, BitVec.and_zero, BitVec.and_zero]
  ext k hk
  simp only [BitVec.getElem_append]
  grind

theorem wordXKK_and_F0FF (g : Nibble) (x : Reg) (kk : Byte) :
    wordXKK g x kk &&& 0xF0FF = g ++ 0#4 ++ kk := by
  have h : (0xF0FF : Word) = 15#4 ++ 0#4 ++ 255#8 := by decide
  have e : ∀ a : Nibble, a &&& 15#4 = a := by decide
  have e' : kk &&& 255#8 = kk := BitVec.and_allOnes
  rw [h, wordXKK, BitVec.and_append, BitVec.and_append, e, e', BitVec.and_zero]

theorem wordNNN_and_F000 (g : Nibble) (nnn : Addr12) : wordNNN g nnn &&& 0xF000 = g ++ 0#12 := by
  have h : (0xF000 : Word) = 15#4 ++ 0#12 := by decide
  have e : ∀ a : Nibble, a &&& 15#4 = a := by decide
  rw [h, wordNNN, BitVec.and_append, e, BitVec.and_zero]

/-- The encoding of `i` is selected by a row of the table that names `i`'s mnemonic. -/
def Laws.EncodesItsRow.Statement (i : Instr) : Prop :=
  ∃ r ∈ opcodeTable, r.mnemonic = i.mnemonic ∧ encode i &&& r.mask = r.bits

namespace Laws.EncodesItsRow

theorem ext : Statement .ext :=
  ⟨⟨.ext, 0x0000, 0xFFFF⟩, by decide, rfl, by decide⟩

theorem cld : Statement .cld :=
  ⟨⟨.cld, 0x00E0, 0xFFFF⟩, by decide, rfl, by decide⟩

theorem ret : Statement .ret :=
  ⟨⟨.ret, 0x00EE, 0xFFFF⟩, by decide, rfl, by decide⟩

theorem jmp (nnn : Addr12) : Statement (.jmp nnn) :=
  ⟨⟨.jmp, 0x1000, 0xF000⟩, by decide, rfl, (wordNNN_and_F000 _ _).trans (by decide)⟩

theorem cll (nnn : Addr12) : Statement (.cll nnn) :=
  ⟨⟨.cll, 0x2000, 0xF000⟩, by decide, rfl, (wordNNN_and_F000 _ _).trans (by decide)⟩

theorem sev (x : Reg) (kk : Byte) : Statement (.sev x kk) :=
  ⟨⟨.sev, 0x3000, 0xF000⟩, by decide, rfl, (wordXKK_and_F000 _ _ _).trans (by decide)⟩

theorem snev (x : Reg) (kk : Byte) : Statement (.snev x kk) :=
  ⟨⟨.snev, 0x4000, 0xF000⟩, by decide, rfl, (wordXKK_and_F000 _ _ _).trans (by decide)⟩

theorem ser (x : Reg) (y : Reg) : Statement (.ser x y) :=
  ⟨⟨.ser, 0x5000, 0xF00F⟩, by decide, rfl, (wordXYD_and_F00F _ _ _ _).trans (by decide)⟩

theorem stv (x : Reg) (kk : Byte) : Statement (.stv x kk) :=
  ⟨⟨.stv, 0x6000, 0xF000⟩, by decide, rfl, (wordXKK_and_F000 _ _ _).trans (by decide)⟩

theorem addv (x : Reg) (kk : Byte) : Statement (.addv x kk) :=
  ⟨⟨.addv, 0x7000, 0xF000⟩, by decide, rfl, (wordXKK_and_F000 _ _ _).trans (by decide)⟩

theorem str (x : Reg) (y : Reg) : Statement (.str x y) :=
  ⟨⟨.str, 0x8000, 0xF00F⟩, by decide, rfl, (wordXYD_and_F00F _ _ _ _).trans (by decide)⟩

theorem or (x : Reg) (y : Reg) : Statement (.or x y) :=
  ⟨⟨.or, 0x8001, 0xF00F⟩, by decide, rfl, (wordXYD_and_F00F _ _ _ _).trans (by decide)⟩

theorem and (x : Reg) (y : Reg) : Statement (.and x y) :=
  ⟨⟨.and, 0x8002, 0xF00F⟩, by decide, rfl, (wordXYD_and_F00F _ _ _ _).trans (by decide)⟩

theorem xor (x : Reg) (y : Reg) : Statement (.xor x y) :=
  ⟨⟨.xor, 0x8003, 0xF00F⟩, by decide, rfl, (wordXYD_and_F00F _ _ _ _).trans (by decide)⟩

theorem add (x : Reg) (y : Reg) : Statement (.add x y) :=
  ⟨⟨.add, 0x8004, 0xF00F⟩, by decide, rfl, (wordXYD_and_F00F _ _ _ _).trans (by decide)⟩

theorem sub (x : Reg) (y : Reg) : Statement (.sub x y) :=
  ⟨⟨.sub, 0x8005, 0xF00F⟩, by decide, rfl, (wordXYD_and_F00F _ _ _ _).trans (by decide)⟩

theorem rsh (x : Reg) : Statement (.rsh x) :=
  ⟨⟨.rsh, 0x8006, 0xF00F⟩, by decide, rfl, (wordXYD_and_F00F _ _ _ _).trans (by decide)⟩

theorem subr (x : Reg) (y : Reg) : Statement (.subr x y) :=
  ⟨⟨.subr, 0x8007, 0xF00F⟩, by decide, rfl, (wordXYD_and_F00F _ _ _ _).trans (by decide)⟩

theorem lsh (x : Reg) : Statement (.lsh x) :=
  ⟨⟨.lsh, 0x800E, 0xF00F⟩, by decide, rfl, (wordXYD_and_F00F _ _ _ _).trans (by decide)⟩

theorem sner (x : Reg) (y : Reg) : Statement (.sner x y) :=
  ⟨⟨.sner, 0x9000, 0xF00F⟩, by decide, rfl, (wordXYD_and_F00F _ _ _ _).trans (by decide)⟩

theorem sti (nnn : Addr12) : Statement (.sti nnn) :=
  ⟨⟨.sti, 0xA000, 0xF000⟩, by decide, rfl, (wordNNN_and_F000 _ _).trans (by decide)⟩

theorem jmpr (nnn : Addr12) : Statement (.jmpr nnn) :=
  ⟨⟨.jmpr, 0xB000, 0xF000⟩, by decide, rfl, (wordNNN_and_F000 _ _).trans (by decide)⟩

theorem rnd (x : Reg) (kk : Byte) : Statement (.rnd x kk) :=
  ⟨⟨.rnd, 0xC000, 0xF000⟩, by decide, rfl, (wordXKK_and_F000 _ _ _).trans (by decide)⟩

theorem drw (x : Reg) (y : Reg) (d : Rows) : Statement (.drw x y d) :=
  ⟨⟨.drw, 0xD000, 0xF000⟩, by decide, rfl, (wordXYD_and_F000 _ _ _ _).trans (by decide)⟩

theorem sep (x : Reg) : Statement (.sep x) :=
  ⟨⟨.sep, 0xE09E, 0xF0FF⟩, by decide, rfl, (wordXKK_and_F0FF _ _ _).trans (by decide)⟩

theorem senp (x : Reg) : Statement (.senp x) :=
  ⟨⟨.senp, 0xE0A1, 0xF0FF⟩, by decide, rfl, (wordXKK_and_F0FF _ _ _).trans (by decide)⟩

theorem strd (x : Reg) : Statement (.strd x) :=
  ⟨⟨.strd, 0xF007, 0xF0FF⟩, by decide, rfl, (wordXKK_and_F0FF _ _ _).trans (by decide)⟩

theorem wtp (x : Reg) : Statement (.wtp x) :=
  ⟨⟨.wtp, 0xF00A, 0xF0FF⟩, by decide, rfl, (wordXKK_and_F0FF _ _ _).trans (by decide)⟩

theorem stdr (x : Reg) : Statement (.stdr x) :=
  ⟨⟨.stdr, 0xF015, 0xF0FF⟩, by decide, rfl, (wordXKK_and_F0FF _ _ _).trans (by decide)⟩

theorem strs (x : Reg) : Statement (.strs x) :=
  ⟨⟨.strs, 0xF018, 0xF0FF⟩, by decide, rfl, (wordXKK_and_F0FF _ _ _).trans (by decide)⟩

theorem addi (x : Reg) : Statement (.addi x) :=
  ⟨⟨.addi, 0xF01E, 0xF0FF⟩, by decide, rfl, (wordXKK_and_F0FF _ _ _).trans (by decide)⟩

theorem stis (x : Reg) : Statement (.stis x) :=
  ⟨⟨.stis, 0xF029, 0xF0FF⟩, by decide, rfl, (wordXKK_and_F0FF _ _ _).trans (by decide)⟩

theorem bcd (x : Reg) : Statement (.bcd x) :=
  ⟨⟨.bcd, 0xF033, 0xF0FF⟩, by decide, rfl, (wordXKK_and_F0FF _ _ _).trans (by decide)⟩

theorem ctr (x : Reg) : Statement (.ctr x) :=
  ⟨⟨.ctr, 0xF055, 0xF0FF⟩, by decide, rfl, (wordXKK_and_F0FF _ _ _).trans (by decide)⟩

theorem cfr (x : Reg) : Statement (.cfr x) :=
  ⟨⟨.cfr, 0xF065, 0xF0FF⟩, by decide, rfl, (wordXKK_and_F0FF _ _ _).trans (by decide)⟩

end Laws.EncodesItsRow

end Sys2Proof
end

