-- ==== Sys2Proof/Tests/Slice0.lean ====
section
/-! SUPPORT. Tests of the model: the well-formedness smoke, words written out bit by bit, the vectors of spec/95_test_vectors.md (each named after its row), and a witness for the hypotheses of every statement. -/

namespace Sys2Proof.Tests

open Sys2Proof Sys2Proof.Machine

/-! ### Helpers -/

/-- The inputs of a tick with no key pressed, the random byte 0 and a display that reports no collision. -/
def quiet : TickInput := ⟨some 0, 0, some 0⟩

/-- The inputs of a tick with these keys. -/
def withKeys (keys : BitVec 16) : TickInput := ⟨some keys, 0, some 0⟩

/-- The reset state with one tick in the schedule. -/
def ready (inp : TickInput := quiet) : State := { State.reset with host := [.tick inp] }

/-- A state with some registers set. -/
def regs (s : State) (vs : List (Reg × Byte)) : State := vs.foldl (fun s p => s.setReg p.1 p.2) s

/-- A state with some bytes of memory set. -/
def bytes (s : State) (a : Nat) (vs : List Byte) : State := s.storeBytes a vs

/-- One step with a word placed where it is fetched. -/
def run (s : State) (w : Nat) : Outcome := step (s.withFetchWord 16 w)

/-- What one looks at in a next state; nothing where there is none. -/
def look {α : Type} (o : Outcome) (f : State → α) : Option α :=
  match o with
  | .next t => some (f t)
  | _ => none

/-- The fault of a stop; nothing where there is none. -/
def stop (o : Outcome) : Option Fault :=
  match o with
  | .fault f => some f
  | _ => none

/-! ### Well-formedness: each check refuses an ill-formed term -/

theorem test_wf_accepts : (RawInstr.mk .drw [15, 15, 15]).wf = true := by decide
theorem test_wf_refuses_missing_operand : (RawInstr.mk .sev [3]).wf = false := by decide
theorem test_wf_refuses_extra_operand : (RawInstr.mk .ret [0]).wf = false := by decide
theorem test_wf_refuses_register_above_15 : (RawInstr.mk .rsh [16]).wf = false := by decide
theorem test_wf_refuses_second_register_above_15 : (RawInstr.mk .ser [0, 16]).wf = false := by decide
theorem test_wf_refuses_immediate_above_255 : (RawInstr.mk .stv [0, 256]).wf = false := by decide
theorem test_wf_refuses_address_above_4095 : (RawInstr.mk .jmp [4096]).wf = false := by decide
theorem test_wf_refuses_count_above_15 : (RawInstr.mk .drw [0, 0, 16]).wf = false := by decide
theorem test_wf_ill_formed_has_no_instruction : (RawInstr.mk .jmp [4096]).toInstr = none := by decide

/-! ### Decoding: the pattern of every row of 30_encoding.md R55, written out by hand -/

theorem test_decode_fixed :
    decode 0b0000000000000000#16 = .ok .ext ∧ decode 0b0000000011100000#16 = .ok .cld ∧
    decode 0b0000000011101110#16 = .ok .ret := by decide

theorem test_decode_control :
    decode 0b0001001000110100#16 = .ok (.jmp 0x234) ∧ decode 0b0010111111111110#16 = .ok (.cll 0xFFE) ∧
    decode 0b0011111100000001#16 = .ok (.sev 15 0x01) ∧ decode 0b0100000100100010#16 = .ok (.snev 1 0x22) ∧
    decode 0b0101000110100000#16 = .ok (.ser 1 10) ∧ decode 0b1001101100100000#16 = .ok (.sner 11 2) ∧
    decode 0b1011001100000001#16 = .ok (.jmpr 0x301) := by decide

theorem test_decode_loads :
    decode 0b0110000010000001#16 = .ok (.stv 0 0x81) ∧ decode 0b0111000111111111#16 = .ok (.addv 1 0xFF) ∧
    decode 0b1000110001010000#16 = .ok (.str 12 5) := by decide

theorem test_decode_two_register :
    decode 0b1000110001010001#16 = .ok (.or 12 5) ∧ decode 0b1000110001010010#16 = .ok (.and 12 5) ∧
    decode 0b1000110001010011#16 = .ok (.xor 12 5) ∧ decode 0b1000110001010100#16 = .ok (.add 12 5) ∧
    decode 0b1000110001010101#16 = .ok (.sub 12 5) ∧ decode 0b1000110001010111#16 = .ok (.subr 12 5) := by
  decide

/-- The `y` nibble of a shift is ignored (30_encoding.md R56, vector V-EN-10). -/
theorem test_decode_shifts :
    decode 0b1000110000000110#16 = .ok (.rsh 12) ∧ decode 0b1000110001010110#16 = .ok (.rsh 12) ∧
    decode 0b1000110000001110#16 = .ok (.lsh 12) ∧ decode 0b1000110011111110#16 = .ok (.lsh 12) := by decide

theorem test_decode_address_register :
    decode 0b1010001100000000#16 = .ok (.sti 0x300) ∧ decode 0b1111001000011110#16 = .ok (.addi 2) ∧
    decode 0b1111010000101001#16 = .ok (.stis 4) := by decide

theorem test_decode_memory :
    decode 0b1111000000110011#16 = .ok (.bcd 0) ∧
    decode 0b1111111101010101#16 = .ok (.ctr 15) ∧ decode 0b1111001001100101#16 = .ok (.cfr 2) := by decide

theorem test_decode_input_output :
    decode 0b1100001000001111#16 = .ok (.rnd 2 0x0F) ∧ decode 0b1101000100100011#16 = .ok (.drw 1 2 3) ∧
    decode 0b1110000010011110#16 = .ok (.sep 0) ∧ decode 0b1110111110100001#16 = .ok (.senp 15) ∧
    decode 0b1111010100001010#16 = .ok (.wtp 5) := by decide

theorem test_decode_timers :
    decode 0b1111001100000111#16 = .ok (.strd 3) ∧ decode 0b1111001100010101#16 = .ok (.stdr 3) ∧
    decode 0b1111000000011000#16 = .ok (.strs 0) := by decide

/-- Vectors V-EN-3 to V-EN-9. -/
theorem test_decode_rejects_in_groups_0_to_9 :
    decode 0x0001#16 = .error (.invalidInstruction 0x0001) ∧
    decode 0x00E1#16 = .error (.invalidInstruction 0x00E1) ∧
    decode 0x0123#16 = .error (.invalidInstruction 0x0123) ∧
    decode 0x5011#16 = .error (.invalidInstruction 0x5011) ∧
    decode 0x8008#16 = .error (.invalidInstruction 0x8008) ∧
    decode 0x9ABF#16 = .error (.invalidInstruction 0x9ABF) := by decide

theorem test_decode_rejects_in_groups_E_and_F :
    decode 0xE000#16 = .error (.invalidInstruction 0xE000) ∧
    decode 0xE09F#16 = .error (.invalidInstruction 0xE09F) ∧
    decode 0xE1A0#16 = .error (.invalidInstruction 0xE1A0) ∧
    decode 0xF000#16 = .error (.invalidInstruction 0xF000) ∧
    decode 0xF1FF#16 = .error (.invalidInstruction 0xF1FF) ∧
    decode 0xF075#16 = .error (.invalidInstruction 0xF075) := by decide

/-- The first byte is the high half of the word (20_memory.md R34); one byte is not a word. -/
theorem test_decode_bytes :
    decodeBytes [0x12, 0x34, 0x56] = .ok (.jmp 0x234, [0x56]) ∧ decodeBytes [0x12] = .error .truncated := by
  decide

theorem test_decode_table_word :
    decodeTableWord 16 0x3122 = some (.sev 1 0x22) ∧ decodeTableWord 16 0x5011 = none := by decide

theorem test_encode : encode (.sev 1 0x22) = 0x3122 ∧ encode (.rsh 12) = 0x8C06 ∧
    encode (.drw 1 2 5) = 0xD125 ∧ encode (.jmpr 0xFFF) = 0xBFFF := by decide

/-- With nothing in the schedule the next step runs the placed word as the first instruction after reset. -/
theorem test_first_instruction_after_reset :
    look (step (State.reset.withFetchWord 16 0x6081)) (fun t => (t.reg 0, t.pc)) = some (0x81, 0x202) := by decide

/-! ### Control flow: vectors of 95_test_vectors.md section 2.2 -/

theorem test_ext_halts : look (run (ready) 0x0000) (fun t => (t.report, t.pc)) = some (some .halted, 0x202) := by
  decide
theorem test_jmp : look (run ready 0x1204) (fun t => (t.pc, t.report)) = some (0x204, some .continued) := by decide
theorem test_cll_with_15_in_use :
    look (run { ready with sp := 15 } 0x2300) (fun t => (t.stack[15], t.sp, t.pc)) = some (0x202, 16, 0x300) := by decide
theorem test_cll_full :
    look (run { ready with sp := 16 } 0x2300) (fun t => (t.fault, t.sp, t.pc)) =
      some (some (.stackOverflow 0x200), 16, 0x202) := by decide
theorem test_ret :
    look (run { ready with pc := 0x20C, sp := 1, stack := State.reset.stack.set 0 0x206 } 0x00EE)
      (fun t => (t.pc, t.sp, t.stack[0])) = some (0x206, 0, 0x206) := by decide
theorem test_ret_empty :
    look (run ready 0x00EE) (fun t => (t.fault, t.sp, t.pc)) = some (some (.stackUnderflow 0x200), 0, 0x202) := by decide
theorem test_sev : look (run (regs ready [(1, 0x22)]) 0x3122) State.pc = some 0x204 := by decide
theorem test_sev_unequal : look (run (regs ready [(1, 0x23)]) 0x3122) State.pc = some 0x202 := by decide
theorem test_snev : look (run (regs ready [(1, 0x23)]) 0x4122) State.pc = some 0x204 := by decide
theorem test_snev_equal : look (run (regs ready [(1, 0x22)]) 0x4122) State.pc = some 0x202 := by decide
theorem test_ser : look (run (regs ready [(0, 7), (1, 7)]) 0x5010) State.pc = some 0x204 := by decide
theorem test_ser_unequal : look (run (regs ready [(0, 7), (1, 8)]) 0x5010) State.pc = some 0x202 := by decide
theorem test_sner : look (run (regs ready [(0, 7), (1, 8)]) 0x9010) State.pc = some 0x204 := by decide
theorem test_sner_equal : look (run (regs ready [(0, 7), (1, 7)]) 0x9010) State.pc = some 0x202 := by decide
theorem test_jmpr : look (run (regs ready [(0, 4)]) 0xB300) State.pc = some 0x304 := by decide
theorem test_jmpr_past_memory : look (run (regs ready [(0, 0xFF)]) 0xBFFF) State.pc = some 0x10FE := by decide

/-! ### Loads and arithmetic: section 2.3 and the source's own examples S1 to S7 -/

theorem test_stv : look (run (regs ready [(15, 1)]) 0x6F00) (fun t => t.reg 15) = some 0 := by decide
theorem test_str : look (run (regs ready [(1, 9)]) 0x8010) (fun t => (t.reg 0, t.reg 1)) = some (9, 9) := by decide
theorem test_addv : look (run (regs ready [(3, 0xFF)]) 0x7301) (fun t => (t.reg 3, t.reg 15)) = some (0, 1) := by decide
theorem test_addv_flag_register :
    look (run (regs ready [(15, 0xFF)]) 0x7F01) (fun t => t.reg 15) = some 1 := by decide
theorem test_add : look (run (regs ready [(0, 1), (1, 255)]) 0x8014) (fun t => (t.reg 0, t.reg 15)) = some (0, 1) := by
  decide
theorem test_add_old_flag :
    look (run (regs ready [(0, 0x10), (15, 1)]) 0x80F4) (fun t => (t.reg 0, t.reg 15)) = some (0x11, 0) := by decide
theorem test_or :
    look (run (regs ready [(0, 0x0F), (1, 0x35), (15, 7)]) 0x8011) (fun t => (t.reg 0, t.reg 15)) = some (0x3F, 7) := by
  decide
theorem test_and :
    look (run (regs ready [(0, 0x0F), (1, 0x35), (15, 7)]) 0x8012) (fun t => (t.reg 0, t.reg 15)) = some (0x05, 7) := by
  decide
theorem test_xor :
    look (run (regs ready [(0, 0x0F), (1, 0x35), (15, 7)]) 0x8013) (fun t => (t.reg 0, t.reg 15)) = some (0x3A, 7) := by
  decide
theorem test_sub : look (run (regs ready [(0, 5), (1, 3)]) 0x8015) (fun t => (t.reg 0, t.reg 15)) = some (2, 1) := by
  decide
theorem test_sub_borrow :
    look (run (regs ready [(0, 5), (1, 6)]) 0x8015) (fun t => (t.reg 0, t.reg 15)) = some (255, 0) := by decide
theorem test_subr : look (run (regs ready [(0, 3), (1, 5)]) 0x8017) (fun t => (t.reg 0, t.reg 15)) = some (2, 1) := by
  decide
theorem test_subr_borrow :
    look (run (regs ready [(0, 5), (1, 3)]) 0x8017) (fun t => (t.reg 0, t.reg 15)) = some (0xFE, 0) := by decide
theorem test_rsh : look (run (regs ready [(0, 0b101)]) 0x8006) (fun t => (t.reg 0, t.reg 15)) = some (0b10, 1) := by
  decide
theorem test_rsh_flag_register : look (run (regs ready [(15, 3)]) 0x8F06) (fun t => t.reg 15) = some 0 := by decide
theorem test_lsh :
    look (run (regs ready [(0, 0b10001010)]) 0x800E) (fun t => (t.reg 0, t.reg 15)) = some (0b00010100, 1) := by decide
theorem test_lsh_flag_register : look (run (regs ready [(15, 0x80)]) 0x8F0E) (fun t => t.reg 15) = some 2 := by decide

/-! ### Random and memory: sections 2.4 and 2.5 -/

theorem test_rnd :
    look (run (ready ⟨none, 0xB7, none⟩) 0xC20F) (fun t => (t.reg 2, t.reg 15)) = some (0x07, 0) := by decide
theorem test_sti : look (run ready 0xA300) State.i = some 0x300 := by decide
theorem test_addi :
    look (run (regs { ready with i := 0x0FFF } [(0, 1), (15, 1)]) 0xF01E) (fun t => (t.i, t.reg 15, t.fault)) =
      some (0x1000, 1, none) := by decide
theorem test_addi_wraps : look (run (regs { ready with i := 0xFFFF } [(0, 1)]) 0xF01E) State.i = some 0 := by decide
theorem test_stis : look (run (regs ready [(4, 0x0A)]) 0xF429) State.i = some 50 := by decide
theorem test_stis_above_15 : look (run (regs ready [(4, 0xFF)]) 0xF429) State.i = some 1275 := by decide
theorem test_bcd_highest_place :
    look (run (regs { ready with i := 4093 } [(0, 129)]) 0xF033)
      (fun t => (t.byteAt 4093, t.byteAt 4094, t.byteAt 4095, t.i)) = some (1, 2, 9, 4093) := by decide
theorem test_bcd_out_of_range :
    look (run (regs { ready with i := 4094 } [(0, 129)]) 0xF033) (fun t => (t.fault, t.byteAt 4094)) =
      some (some (.memoryOutOfRange 4096 0x200), 0) := by decide
theorem test_ctr :
    look (run (regs { ready with i := 0x300 } [(0, 0xAA), (1, 0xBB), (2, 0xCC)]) 0xF155)
      (fun t => (t.byteAt 0x300, t.byteAt 0x301, t.byteAt 0x302, t.i)) = some (0xAA, 0xBB, 0, 0x300) := by decide
theorem test_ctr_out_of_range :
    look (run (regs { ready with i := 4095 } [(0, 5)]) 0xF155) (fun t => (t.fault, t.byteAt 4095)) =
      some (some (.memoryOutOfRange 4096 0x200), 0) := by decide
theorem test_cfr :
    look (run (bytes (regs { ready with i := 0x300 } [(3, 7)]) 0x300 [1, 2, 9, 4]) 0xF265)
      (fun t => (t.reg 0, t.reg 1, t.reg 2, t.reg 3)) = some (1, 2, 9, 7) := by decide
theorem test_cfr_out_of_range :
    look (run { ready with i := 0xFFFF } 0xF165) State.fault = some (some (.memoryOutOfRange 0xFFFF 0x200)) := by decide

/-! ### Display, input and timers: sections 2.6 and 2.7 -/

theorem test_cld : look (run ready 0x00E0) State.display = some [.clear] := by decide
theorem test_drw :
    look (run (bytes (regs { ready ⟨none, 0, some 0b10⟩ with i := 0x300 } [(1, 3), (2, 4)]) 0x300 [0xF0, 0x90]) 0xD122)
      (fun t => (t.display, t.reg 15)) = some ([.drawRow 3 4 0xF0, .drawRow 3 5 0x90], 1) := by decide
theorem test_drw_tall_coordinate :
    look (run (regs { ready with i := 0x300 } [(2, 0xFF)]) 0xD123) State.display =
      some [.drawRow 0 255 0, .drawRow 0 256 0, .drawRow 0 257 0] := by decide
theorem test_sep :
    look (run (regs { ready (withKeys 0x0080) with pc := 0x202 } [(0, 7)]) 0xE09E) State.pc = some 0x206 := by decide
theorem test_sep_index_above_15 :
    look (run (regs ready [(0, 0x10)]) 0xE09E) (fun t => (t.fault, t.pc)) =
      some (some (.invalidKeyIndex 0x10 0x200), 0x202) := by decide
theorem test_senp :
    look (run (regs { ready with pc := 0x202 } [(0, 7)]) 0xE0A1) State.pc = some 0x206 := by decide
theorem test_senp_index_above_15 :
    look (run (regs ready [(0, 0xFF)]) 0xE0A1) State.fault = some (some (.invalidKeyIndex 0xFF 0x200)) := by decide
theorem test_wtp : look (run (ready (withKeys 0x0088)) 0xF00A) (fun t => (t.reg 0, t.pc)) = some (3, 0x202) := by decide
theorem test_wtp_waits : look (run (regs ready [(0, 9)]) 0xF00A) (fun t => (t.reg 0, t.pc, t.report)) =
    some (9, 0x200, some .continued) := by decide
theorem test_strd : look (run { ready with dt := 0x2A } 0xF307) (fun t => (t.reg 3, t.dt)) = some (0x2A, 0x2A) := by
  decide
theorem test_stdr : look (run (regs ready [(3, 60)]) 0xF315) (fun t => (t.dt, t.st)) = some (60, 0) := by decide
theorem test_strs : look (run (regs ready [(0, 5)]) 0xF018) (fun t => (t.st, t.sound)) = some (5, true) := by decide
theorem test_timer_tick :
    look (step { State.reset with dt := 2, st := 0, host := [.timerTick] }) (fun t => (t.dt, t.st)) = some (1, 0) := by
  decide

/-! ### Fetch, fatals, the host: section 2.1 -/

theorem test_fetch_at_4094 :
    look (run { ready with pc := 4094 } 0x6007) (fun t => (t.reg 0, t.pc)) = some (7, 4096) := by decide
theorem test_fetch_at_4095 :
    look (step { ready with pc := 4095 }) (fun t => (t.fault, t.pc)) =
      some (some (.memoryOutOfRange 4096 4095), 4095) := by decide
theorem test_fetch_above :
    look (step { ready with pc := 0x10FE }) (fun t => (t.fault, t.pc)) =
      some (some (.memoryOutOfRange 0x10FE 0x10FE), 0x10FE) := by decide
theorem test_fetch_at_odd_address :
    look (run { ready with pc := 0x201 } 0x6105) (fun t => (t.reg 1, t.pc)) = some (5, 0x203) := by decide
theorem test_invalid_word :
    look (run ready 0x0001) (fun t => (t.fault, t.report, t.pc)) =
      some (some (.invalidInstruction 1 0x200), some .fatal, 0x202) := by decide
/-- 10_state.md R25: the first byte of glyph A, and the first byte past the table. -/
theorem test_reset_glyphs : State.reset.byteAt 0x32 = 0xF0 ∧ State.reset.byteAt 79 = 0x80 ∧
    State.reset.byteAt 80 = 0 := by decide
theorem test_load :
    look (step { State.reset with host := [.load [0x6081, 0xA300]] })
      (fun t => (t.wordAt 0x200, t.wordAt 0x202, t.host)) = some (0x6081, 0xA300, []) := by decide
theorem test_load_after_first_tick :
    stop (step { State.reset with report := some .continued, host := [.load []] }) = some .loadAfterFirstTick := by
  decide

/-- The program P6 of 95_test_vectors.md: a forward reference becomes a call. -/
theorem test_assemble_forward_reference :
    assemble (["STV 0 01", "addone", "EXT", "#f addone", "ADDV 0 01", "RET"].map String.toList) =
      .ok [0x6001, 0x2206, 0x0000, 0x7001, 0x00EE] := by decide
/-- A name inside a definition emits the placeholder into its buffer; never defined, it stays (30_encoding.md R65, R66). -/
theorem test_assemble_reference_inside_definition :
    assemble (["EXT", "#f loop", "STV 0 01", "other", "RET"].map String.toList) =
      .ok [0x0000, 0x6001, Config.placeholderWord, 0x00EE] := rfl
/-- A missing operand is an error of its line, with the line's number and text (30_encoding.md R64). -/
theorem test_assemble_missing_operand :
    assemble (["// header", "", "STV 0"].map String.toList) =
      .error (.atLine 3 "STV 0".toList .missingOperand) := by decide

/-! ### Witnesses: states and operands that meet the hypotheses of each statement, every clause at its boundaries -/

/-- The reset state with a tick in the schedule and a word at `pc`. -/
def fetching (w : Nat) (inp : TickInput := quiet) : State := (ready inp).withFetchWord 16 w

/-- A machine that a stack underflow has stopped. -/
def faulted : State := { ready with fault := some (.stackUnderflow 0x200), report := some .fatal }

theorem test_witness_inv : MachineInv (fetching 0x6081) ∧ ∃ t, step (fetching 0x6081) = .next t :=
  ⟨by unfold MachineInv; decide, _, rfl⟩

theorem test_witness_even :
    EvenAddresses (fetching 0x1204) ∧ (∀ i, NextInstr (fetching 0x1204) i → EvenTarget i (fetching 0x1204)) ∧
      ∃ t, step (fetching 0x1204) = .next t := by
  refine ⟨by unfold EvenAddresses; decide, fun i h => ?_, _, rfl⟩
  have hd : decode ((fetching 0x1204).wordAt (fetching 0x1204).pc.toNat) = .ok (.jmp 0x204) := by decide
  obtain rfl : Instr.jmp 0x204 = i := by simpa [hd] using h.2.2
  simp [EvenTarget]

theorem test_witness_next_instr :
    (fetching 0x6081).host = .tick quiet :: [] ∧ NextInstr (fetching 0x6081) (.stv 0 0x81) ∧
    (State.reset.withFetchWord 16 0x6081).host = [] ∧
    NextInstr (State.reset.withFetchWord 16 0x6081) (.stv 0 0x81) := by
  unfold NextInstr; decide

/-- The highest address an instruction is fetched from is 4094. -/
theorem test_witness_next_instr_at_4094 :
    NextInstr ({ ready with pc := 4094 }.withFetchWord 16 0x6007) (.stv 0 7) := by
  unfold NextInstr; decide

theorem test_witness_unrecognised :
    (fetching 0x5011).host = .tick quiet :: [] ∧ (fetching 0x5011).fault = none ∧
    (fetching 0x5011).pc.toNat < 4095 ∧
    ∀ r ∈ opcodeTable, (fetching 0x5011).wordAt (fetching 0x5011).pc.toNat &&& r.mask ≠ r.bits := by
  refine ⟨by decide, by decide, by decide, ?_⟩
  have : (fetching 0x5011).wordAt (fetching 0x5011).pc.toNat = 0x5011 := by decide
  rw [this]; decide

theorem test_witness_fetch_above :
    { ready with pc := 4095 }.host = .tick quiet :: [] ∧ { ready with pc := 4095 }.fault = none ∧
    4095 ≤ { ready with pc := 4095 }.pc.toNat ∧ 4095 ≤ { ready with pc := 4096 }.pc.toNat := by decide

theorem test_witness_table :
    (⟨.ser, 0x5000, 0xF00F⟩ : OpcodeRow) ∈ opcodeTable ∧ 0x5AB0#16 &&& 0xF00F = 0x5000 ∧
    decode 0x5AB0 = .ok (.ser 10 11) ∧ ∀ r ∈ opcodeTable, 0x5AB1#16 &&& r.mask ≠ r.bits := by decide

theorem test_witness_encode_of_decode :
    decode 0x8016 = .ok (.rsh 0) ∧ (Instr.rsh 0).mnemonic = .rsh ∧
    decode 0x8014 = .ok (.add 0 1) ∧ ¬((Instr.add 0 1).mnemonic = .rsh ∨ (Instr.add 0 1).mnemonic = .lsh) := by
  decide

/-- Both clauses of the statements about register 15 as destination and not. -/
theorem test_witness_destinations : (14 : Reg) ≠ flagReg ∧ (15 : Reg) = flagReg := by decide

theorem test_witness_jump_to_itself :
    ({ ready with pc := 0x20A }.withFetchWord 16 0x120A).host = .tick quiet :: [] ∧
    NextInstr ({ ready with pc := 0x20A }.withFetchWord 16 0x120A) (.jmp 0x20A) ∧
    ({ ready with pc := 0x20A }.withFetchWord 16 0x120A).pc.toNat = (0x20A#12).toNat :=
  ⟨by decide, by unfold NextInstr; decide, by decide⟩

theorem test_witness_jump_to_the_top :
    ready.fault = none ∧ ready.host = .tick quiet :: [] ∧ ∃ t, exec (.jmp 0xFFF) ready = .next t :=
  ⟨by decide, by decide, _, rfl⟩

/-- Calls with the stack empty, with one entry free, and full; returns with one entry, sixteen, and none. -/
theorem test_witness_stack :
    State.reset.sp.val < 16 ∧ { State.reset with sp := 15 }.sp.val < 16 ∧ { State.reset with sp := 16 }.sp.val = 16 ∧
    { State.reset with sp := 1 }.sp.val = (0 : Fin 16).val + 1 ∧
    { State.reset with sp := 16 }.sp.val = (15 : Fin 16).val + 1 ∧ State.reset.sp.val = 0 := by decide

theorem test_witness_return :
    { State.reset with sp := 15 }.sp.val < 16 ∧
    ∃ t, exec (.cll 0x300) { State.reset with sp := 15 } = .next t ∧ t.sp = t.sp ∧ t.stack = t.stack :=
  ⟨by decide, _, rfl, rfl, rfl⟩

theorem test_witness_sixteen_calls :
    State.reset.sp.val = 0 ∧ State.reset.fault = none ∧ (List.replicate 16 (0x300 : Addr12)).length ≤ 16 ∧
    (List.replicate 16 (0x300 : Addr12)).length = 16 := by decide

theorem test_witness_halted :
    { fetching 0x6081 with report := some .halted }.report = some .halted ∧
    { fetching 0x6081 with report := some .halted }.host = .tick quiet :: [] ∧
    NextInstr { fetching 0x6081 with report := some .halted } (.stv 0 0x81) := by
  unfold NextInstr; decide

/-- BCD at the highest place that fits and the lowest that does not. -/
theorem test_witness_bcd :
    State.reset.mem.wf ∧ { State.reset with i := 4093 }.i.toNat + 2 ≤ 4095 ∧
    4095 < { State.reset with i := 4094 }.i.toNat + 2 ∧ 4095 < { State.reset with i := 0xFFFF }.i.toNat + 2 := by decide

/-- CTR and CFR the same, with one register and with sixteen. -/
theorem test_witness_block :
    State.reset.mem.wf ∧ { State.reset with i := 4095 }.i.toNat + (0 : Reg).val ≤ 4095 ∧
    { State.reset with i := 4080 }.i.toNat + (15 : Reg).val ≤ 4095 ∧
    4095 < { State.reset with i := 4096 }.i.toNat + (0 : Reg).val ∧
    4095 < { State.reset with i := 4081 }.i.toNat + (15 : Reg).val := by decide

theorem test_witness_round_trip :
    { State.reset with i := 4080 }.mem.wf ∧ { State.reset with i := 4080 }.i.toNat + (15 : Reg).val ≤ 4095 ∧
    ∃ t, exec (.ctr 15) { State.reset with i := 4080 } = .next t := ⟨by decide, by decide, _, rfl⟩

theorem test_witness_store : State.reset.mem.wf ∧ 4095 < 4096 ∧ 79 < 4096 ∧ 80 ≠ 79 := by decide

theorem test_witness_store_then_fetch :
    (regs { State.reset with i := 0x300 } [(0, 0x60), (1, 0x2A)]).mem.wf ∧ (1 : Reg) ≠ 0 ∧
    (regs { State.reset with i := 0x300 } [(0, 0x60), (1, 0x2A)]).i.toNat + (1 : Reg).val ≤ 4095 ∧
    decode ((regs State.reset [(0, 0x60), (1, 0x2A)]).reg 0 ++ (regs State.reset [(0, 0x60), (1, 0x2A)]).reg 1) =
      .ok (.stv 0 0x2A) ∧
    ∃ t, exec (.ctr 1) (regs { State.reset with i := 0x300 } [(0, 0x60), (1, 0x2A)]) = .next t ∧
      { t with pc := 0x300, host := [.tick quiet] }.mem = t.mem ∧
      { t with pc := 0x300, host := [.tick quiet] }.fault = none :=
  ⟨by decide, by decide, by decide, by decide, _, rfl, rfl, by decide⟩

/-- No row at any `I`; the last row at 4095; the last row at 4096. -/
theorem test_witness_sprite :
    (0 : Rows).val = 0 ∧ { State.reset with i := 4093 }.i.toNat + (3 : Rows).val ≤ 4096 ∧
    (3 : Rows).val ≠ 0 ∧ 4096 < { State.reset with i := 4094 }.i.toNat + (3 : Rows).val ∧
    (fetching 0xD123).host.head? = some (.tick quiet) ∧ quiet.sink = some 0 ∧ TickInput.idle.sink = none := by decide

theorem test_witness_key_index :
    ((regs State.reset [(0, 15)]).reg 0).toNat ≤ 15 ∧ 15 < ((regs State.reset [(0, 16)]).reg 0).toNat ∧
    (regs State.reset [(0, 16)]).input.keys = none ∧ { State.reset with input := quiet }.input.keys = some 0 := by decide

/-- The lowest of the keys 3 and 7; key 15 alone; none pressed; no key state. -/
theorem test_witness_key_wait :
    (∀ p ∈ [(0x0088#16, 3), (0x8000#16, 15)], p.2 < 16 ∧ (withKeys p.1).keys = some p.1 ∧
      p.1.getLsbD p.2 = true ∧ ∀ j < p.2, p.1.getLsbD j = false) ∧
    quiet.keys = some 0 ∧ TickInput.idle.keys = none := by decide

theorem test_witness_key_wait_repeats :
    (fetching 0xF00A).host = .tick quiet :: [] ∧ NextInstr (fetching 0xF00A) (.wtp 0) ∧
    ∀ keys, quiet.keys = some keys → keys = 0 :=
  ⟨by decide, by unfold NextInstr; decide, fun keys h => by simpa [quiet] using h.symm⟩

theorem test_witness_timer_ticks :
    { State.reset with dt := 2, st := 255, host := [.timerTick, .timerTick, .timerTick] }.host =
      List.replicate 3 .timerTick ++ [] := by decide

theorem test_witness_timer_commutes :
    (∀ x, Instr.ext ≠ .strd x ∧ Instr.ext ≠ .stdr x ∧ Instr.ext ≠ .strs x) ∧
      ∃ t, exec .ext { State.reset with dt := 1 } = .next t := ⟨by simp, _, rfl⟩

theorem test_witness_faulted :
    faulted.fault = some (.stackUnderflow 0x200) ∧ faulted.host = .tick quiet :: [] := by decide

theorem test_witness_latch :
    faulted.fault ≠ none ∧ MachineInv faulted ∧ (∃ t, exec .ext faulted = .next t) ∧ (∃ t, step faulted = .next t) ∧
    faulted.host.head? ≠ some .reset ∧ { faulted with host := [.reset] }.host.head? = some .reset ∧
    MachineInv { faulted with host := [.reset] } ∧ ∃ t, step { faulted with host := [.reset] } = .next t :=
  ⟨by decide, by unfold MachineInv; decide, ⟨_, rfl⟩, ⟨_, rfl⟩, by decide, by decide, by unfold MachineInv; decide, _, rfl⟩

theorem test_witness_fatal :
    State.reset.fault = none ∧ ∃ t, exec .ret State.reset = .next t ∧ t.fault ≠ none := ⟨by decide, _, rfl, by decide⟩

theorem test_witness_fatal_sources :
    ((regs State.reset [(0, 16)]).fault = none ∧ (∃ t, exec (.senp 0) (regs State.reset [(0, 16)]) = .next t)) ∧
    { State.reset with sp := 16 }.fault = none ∧ ∃ t, exec (.cll 0) { State.reset with sp := 16 } = .next t :=
  ⟨⟨by decide, _, rfl⟩, by decide, _, rfl⟩

theorem test_witness_flag_changes :
    ∃ t, exec (.add 0 1) (regs State.reset [(0, 255), (1, 1)]) = .next t ∧
      t.reg flagReg ≠ (regs State.reset [(0, 255), (1, 1)]).reg flagReg := ⟨_, rfl, by decide⟩

theorem test_witness_address_register_changes :
    ∃ t, exec (.sti 0x300) State.reset = .next t ∧ t.i ≠ State.reset.i := ⟨_, rfl, by decide⟩
theorem test_witness_stack_changes :
    ∃ t, exec (.cll 0x300) State.reset = .next t ∧ (t.sp ≠ State.reset.sp ∨ t.stack ≠ State.reset.stack) :=
  ⟨_, rfl, by decide⟩
theorem test_witness_timers_change :
    (∃ t, exec (.stdr 0) (regs State.reset [(0, 1)]) = .next t ∧ t.dt ≠ State.reset.dt) ∧
    ∃ t, exec (.strs 0) (regs State.reset [(0, 1)]) = .next t ∧ t.st ≠ State.reset.st :=
  ⟨⟨_, rfl, by decide⟩, _, rfl, by decide⟩
theorem test_witness_memory_changes :
    ∃ t, exec (.ctr 0) (regs { State.reset with i := 0x300 } [(0, 1)]) = .next t ∧ t.mem ≠ State.reset.mem :=
  ⟨_, rfl, by decide⟩
theorem test_witness_display_changes :
    ∃ t, exec .cld { State.reset with input := quiet } = .next t ∧ t.display ≠ State.reset.display :=
  ⟨_, rfl, by decide⟩

theorem test_witness_inputs_do_not_matter :
    (Instr.add 0 1).mnemonic ∉ [.rnd, .drw, .cld, .sep, .senp, .wtp] ∧
      ∃ t, exec (.add 0 1) State.reset = .next t := ⟨by decide, _, rfl⟩

/-- An image of two words, and the longest that fits: its last word is at 4094. -/
theorem test_witness_load :
    { State.reset with host := [.load [0x6081, 0xA300]] }.mem.wf ∧
    { State.reset with host := [.load [0x6081, 0xA300]] }.report = none ∧
    Config.programStart.toNat + 2 * ([0x6081, 0xA300] : List Word).length ≤ 4096 ∧
    Config.programStart.toNat + 2 * (List.replicate 1792 (0 : Word)).length ≤ 4096 := by
  refine ⟨by decide, by decide, by decide, ?_⟩
  rw [List.length_replicate]; decide

theorem test_witness_reset_act : { faulted with host := [.reset] }.host = .reset :: [] := by decide

theorem test_witness_assemble :
    Config.programStart.toNat + 2 * ([.stv 0 1, .ext] : List Instr).length ≤ 4096 := by decide

/-- A definition with an empty body, a name of one letter that is not a mnemonic. -/
theorem test_witness_reference :
    ['f'] ≠ [] ∧ (∀ c ∈ ['f'], c.isWhitespace = false) ∧ ['f'].head? ≠ some '#' ∧ ['f'].take 2 ≠ ['/', '/'] ∧
    mnemonicOf ['f'] = none ∧ Instr.ret ∉ ([.addv 0 1] : List Instr) ∧
    Config.programStart.toNat +
      2 * (([.stv 0 1] : List Instr).length + ([.ext] : List Instr).length + ([.addv 0 1] : List Instr).length + 2) ≤ 4096 := by
  have : mnemonicOf ['f'] = none := by decide
  exact ⟨by decide, List.forall_mem_singleton.2 (by decide), by decide, by decide, this, by decide, by decide⟩

/-- A reference to the definition's own name, and one to a name that nothing defines. -/
theorem test_witness_reference_inside :
    (∀ n ∈ [['f'], ['g']], n ≠ [] ∧ (∀ c ∈ n, c.isWhitespace = false) ∧ n.head? ≠ some '#' ∧
      n.take 2 ≠ ['/', '/'] ∧ mnemonicOf n = none) ∧
    Instr.ret ∉ ([.addv 0 1] : List Instr) ∧ Instr.ret ∉ ([] : List Instr) ∧ ['g'] ≠ ['f'] ∧
    Config.programStart.toNat + 2 * (([.ext] : List Instr).length + ([.addv 0 1] : List Instr).length +
      ([] : List Instr).length + 2) ≤ 4096 := by
  have hf : mnemonicOf ['f'] = none := by decide
  have hg : mnemonicOf ['g'] = none := by decide
  refine ⟨?_, by decide, by decide, by decide, by decide⟩
  simp only [List.forall_mem_cons, List.not_mem_nil, false_imp_iff, implies_true, and_true]
  exact ⟨⟨by decide, by decide, by decide, by decide, hf⟩, by decide, by decide, by decide, by decide, hg⟩

end Sys2Proof.Tests
end

section
/-! SUPPORT. Control flow (40_control_flow.md R71 to R77): what the shared operations keep, in the terms of the claims, what a scheduled tick runs, and the proofs about the skips, JMP, CLL and RET. -/

namespace Sys2Proof.Machine

/-! #### Values and frames of the shared operations -/

@[simp] theorem zext16_toNat (nnn : Addr12) : (zext16 nnn).toNat = nnn.toNat := by
  have := nnn.isLt
  simp only [zext16, BitVec.truncate_eq_setWidth, BitVec.toNat_setWidth]
  omega

theorem keepsAllBut_setPc (s : State) (a : Addr) : KeepsAllBut { pc := true } s (s.setPc a) := by
  simp [KeepsAllBut]

theorem keepsAllBut_skipIf (s : State) (c : Bool) : KeepsAllBut { pc := true } s (s.skipIf c) :=
  keepsAllBut_setPc s _

theorem keepsAllBut_push_setPc (s : State) (a b : Addr) (room : s.sp.val < 16) :
    KeepsAllBut { pc := true, stack := true } s ((s.push a room).setPc b) := by
  simp [KeepsAllBut]

theorem keepsAllBut_popPc (s : State) (used : 0 < s.sp.val) :
    KeepsAllBut { pc := true, stack := true } s (s.popPc used) := by
  simp [KeepsAllBut]

theorem keepsAllBut_raise (s : State) (f : Fatal) : KeepsAllBut { latch := true } s (s.raise f) := by
  simp [KeepsAllBut]

/-- A push writes the entry at `SP` and no other (40_control_flow.md R73). -/
theorem push_stack_getElem (s : State) (a : Addr) (room : s.sp.val < 16) (k : Fin 16) :
    (s.push a room).stack[k] = if k.val = s.sp.val then a else s.stack[k] := by
  simp only [push_stack, Fin.getElem_fin, Vector.getElem_set, eq_comm]

/-! #### What a scheduled tick runs -/

/-- Which instruction comes next depends on the latch, `pc` and memory alone. -/
theorem nextInstr_congr {s t : State} {i : Instr} (h : NextInstr s i) (fault : t.fault = s.fault)
    (pc : t.pc = s.pc) (mem : t.mem = s.mem) : NextInstr t i := by
  simpa [NextInstr, State.wordAt, State.byteAt, fault, pc, mem] using h

/-- A cycle runs the instruction at `pc` once the fetch has advanced (30_encoding.md R50, R52). -/
theorem cycle_of_nextInstr {s : State} {i : Instr} (hnext : NextInstr s i) : cycle s = exec i s.advance := by
  obtain ⟨-, hpc, hdec⟩ := hnext
  simp only [cycle, fetch_inRange s hpc, runWord, hdec]

/-- A cycle whose fetch leaves memory is fatal and does not advance `pc` (20_memory.md R33). -/
theorem cycle_of_fetch_outOfRange {s : State} (hpc : 4095 ≤ s.pc.toNat) :
    cycle s = .next (s.raise (.memoryOutOfRange (BitVec.ofNat 16 (max s.pc.toNat 4096)) s.pc)) := by
  simp only [cycle, fetch_outOfRange s hpc]

/-- A scheduled tick of a machine that is not faulted is one cycle on the sampled inputs. -/
theorem step_tick_clear {s : State} {inp : TickInput} {rest : List HostAct}
    (hhost : s.host = .tick inp :: rest) (hfault : s.fault = none) :
    step s = cycle { s with host := rest, input := inp } :=
  (step_tick s hhost).trans (tick_clear { s with host := rest } inp hfault)

/-- A scheduled tick runs the instruction at `pc` in the fetched state (30_encoding.md R50, R52). -/
theorem step_of_nextInstr {s : State} {inp : TickInput} {rest : List HostAct} {i : Instr}
    (hhost : s.host = .tick inp :: rest) (hnext : NextInstr s i) :
    step s = exec i ({ s with host := rest }.fetched inp) :=
  (step_tick_clear hhost hnext.1).trans (cycle_of_nextInstr (nextInstr_congr hnext rfl rfl rfl))

/-- A scheduled tick whose fetch leaves memory is fatal (20_memory.md R33). -/
theorem step_of_fetch_outOfRange {s : State} {inp : TickInput} {rest : List HostAct}
    (hhost : s.host = .tick inp :: rest) (hfault : s.fault = none) (hpc : 4095 ≤ s.pc.toNat) :
    step s = .next ({ s with host := rest, input := inp }.raise
      (.memoryOutOfRange (BitVec.ofNat 16 (max s.pc.toNat 4096)) s.pc)) :=
  (step_tick_clear hhost hfault).trans (cycle_of_fetch_outOfRange hpc)

/-! #### The claims -/

/-- Settles O23, by the two branches of CLL: room for an entry, or the full stack. -/
theorem callPushesAndJumps : Obligations.CallPushesAndJumps := by
  intro nnn s
  refine ⟨fun room => ?room, fun full => ?full⟩
  case room =>
    exact ⟨_, exec_cll_of_room s nnn room, rfl, zext16_toNat nnn, push_stack_getElem s s.pc room,
      keepsAllBut_push_setPc s _ _ room⟩
  case full => exact ⟨_, exec_cll_of_full s nnn full, rfl, ⟨_, rfl⟩, keepsAllBut_raise s _⟩

/-- Settles O24, by the two branches of RET: an entry in use, or the empty stack. -/
theorem returnPopsTheStack : Obligations.ReturnPopsTheStack := by
  intro s
  refine ⟨fun k hk => ?used, fun empty => ?empty⟩
  case used =>
    have used : 0 < s.sp.val := by omega
    have top : s.sp.val - 1 = k.val := by omega
    exact ⟨_, exec_ret_of_used s used, top, by simp [top], rfl, keepsAllBut_popPc s used⟩
  case empty => exact ⟨_, exec_ret_of_empty s empty, rfl, ⟨_, rfl⟩, keepsAllBut_raise s _⟩

/-- Settles O20: each skip is `skipIf` on its condition, and SNEV and SNER have the branches of SEV and SER exchanged. -/
theorem registerSkips : Obligations.RegisterSkips := by
  refine ⟨fun x kk s => ⟨?sev, ?snev⟩, fun x y s => ⟨?ser, ?sner⟩⟩
  case sev => exact ⟨_, exec_sev s x kk, keepsAllBut_skipIf s _, by simp⟩
  case snev => exact ⟨_, exec_snev s x kk, keepsAllBut_skipIf s _, by simp⟩
  case ser => exact ⟨_, exec_ser s x y, keepsAllBut_skipIf s _, by simp⟩
  case sner => exact ⟨_, exec_sner s x y, keepsAllBut_skipIf s _, by simp⟩

/-- A tick that runs a jump to its own address leaves `pc` at that address, and memory and the latch alone, so the jump is
next again (40_control_flow.md R72). -/
theorem step_jmp_self {s : State} {nnn : Addr12} {inp : TickInput} {rest : List HostAct}
    (hhost : s.host = .tick inp :: rest) (hnext : NextInstr s (.jmp nnn)) (hself : s.pc.toNat = nnn.toNat) :
    ∃ t, step s = .next t ∧ t.pc = s.pc ∧ t.report = some .continued ∧ NextInstr t (.jmp nnn) := by
  have hpc : zext16 nnn = s.pc := BitVec.eq_of_toNat_eq ((zext16_toNat nnn).trans hself.symm)
  exact ⟨_, step_of_nextInstr hhost hnext, hpc, rfl, nextInstr_congr hnext rfl hpc rfl⟩

/-- Settles O21: the third clause is the fetch at 4095, whose second byte is outside memory. -/
theorem jumpLoadsItsTarget : Obligations.JumpLoadsItsTarget := by
  refine ⟨fun nnn s => ?target, fun nnn s inp rest => step_jmp_self, fun s t inp rest hfault hhost hexec => ?top⟩
  case target => exact ⟨_, exec_jmp s nnn, zext16_toNat nnn, keepsAllBut_setPc s _⟩
  case top =>
    obtain rfl : s.setPc (zext16 0xFFF) = t := by simpa using hexec
    exact ⟨_, step_of_fetch_outOfRange (s := s.setPc (zext16 0xFFF)) hhost hfault (by simp), rfl⟩

end Sys2Proof.Machine
end

section
/-! SUPPORT. Loads (41_load_arithmetic.md R90, R91): what a write to one register does, in the terms of the claims, and the proof about STV and STR. -/

namespace Sys2Proof.Machine

theorem reg_setReg_same (s : State) (x : Reg) (b : Byte) : (s.setReg x b).reg x = b := by
  rw [reg_setReg, if_pos rfl]

/-- A register write keeps every other register and the rest of the state (10_state.md R10). -/
theorem keepsAllBut_setReg (s : State) (x : Reg) (b : Byte) : KeepsAllBut { regs := [x] } s (s.setReg x b) := by
  simp +contextual [KeepsAllBut]

/-- Settles O14: both instructions are one register write, of the immediate or of the other register's old value. -/
theorem loadsWriteTheirRegister : Obligations.LoadsWriteTheirRegister := by
  refine ⟨fun x kk s => ?stv, fun x y s => ?str⟩
  case stv => exact ⟨_, exec_stv s x kk, reg_setReg_same s x kk, keepsAllBut_setReg s x kk⟩
  case str => exact ⟨_, exec_str s x y, reg_setReg_same s x (s.reg y), keepsAllBut_setReg s x (s.reg y)⟩

end Sys2Proof.Machine
end

section
/-! SUPPORT. The address register (43_memory_address.md R115): what a write to `I` keeps, in the terms of the claims, where a 12-bit address lies, and the proof about STI. -/

namespace Sys2Proof.Machine

/-- A 12-bit address never leaves the address space (43_memory_address.md R115). -/
theorem zext16_toNat_le (nnn : Addr12) : (zext16 nnn).toNat ≤ 4095 := by
  have := nnn.isLt
  rw [zext16_toNat]
  omega

/-- A write to the address register keeps the rest of the state, the flag register included (43_memory_address.md R115). -/
theorem keepsAllBut_setI (s : State) (a : Addr) : KeepsAllBut { i := true } s (s.setI a) := by
  simp [KeepsAllBut]

/-- Settles O28: STI is one write to the address register, of its operand zero-extended. -/
theorem stiLoadsTheAddressRegister : Obligations.StiLoadsTheAddressRegister := by
  intro nnn s
  exact ⟨_, exec_sti s nnn, zext16_toNat nnn, zext16_toNat_le nnn, keepsAllBut_setI s _⟩

end Sys2Proof.Machine
end

section
/-! SUPPORT. The key tests (44_display_input.md R134, R135): what a supplied key state answers, what an index above 15 does to both instructions, and the proof about SEP and SENP. -/

namespace Sys2Proof.Machine

/-- With a key state supplied, a key is down exactly when its bit is set (44_display_input.md R133). -/
theorem keyDown_of_keys {s : State} {keys : BitVec 16} (hkeys : s.input.keys = some keys) (k : Nat) :
    s.keyDown k = keys.getLsbD k := by
  simp only [State.keyDown, hkeys]

/-- The check of the index comes before any key is read, so no key state is assumed (44_display_input.md R134, R135). -/
theorem skipOnKey_badIndex_fatal {s : State} {x : Reg} (wanted : Bool) (hbad : 15 < (s.reg x).toNat) :
    ∃ t, s.skipOnKey x wanted = .next t ∧ (∃ a, t.fault = some (.invalidKeyIndex (s.reg x) a)) ∧
      t.report = some .fatal ∧ KeepsAllBut { latch := true } s t :=
  ⟨_, skipOnKey_of_badIndex s x wanted hbad, ⟨_, rfl⟩, rfl, keepsAllBut_raise s _⟩

/-- Settles O39, by the two branches of the shared key test: an index of a key, where SENP has the branches of SEP
exchanged, or an index above 15. -/
theorem keySkips : Obligations.KeySkips := by
  intro x s keys hkeys
  have hdown := keyDown_of_keys hkeys (s.reg x).toNat
  refine ⟨fun hindex => ⟨?sep, ?senp⟩, fun hbad => ?badIndex⟩
  case sep => exact ⟨_, skipOnKey_of_index s x true hindex, keepsAllBut_skipIf s _, by simp [hdown]⟩
  case senp =>
    refine ⟨_, skipOnKey_of_index s x false hindex, keepsAllBut_skipIf s _, ?_⟩
    cases hkey : keys.getLsbD (s.reg x).toNat <;> simp [hdown, hkey]
  case badIndex =>
    simp only [List.forall_mem_cons, exec_sep, exec_senp]
    exact ⟨skipOnKey_badIndex_fatal true hbad, skipOnKey_badIndex_fatal false hbad, List.forall_mem_nil _⟩

end Sys2Proof.Machine
end

section
/-! SUPPORT. The sources of the fatal conditions (60_exceptions.md R155 to R164): an instruction latches what the table says, which rows of the table the stack and the key tests have, and the proof that these three have one source each. -/

namespace Sys2Proof.Machine

/-! #### The latch after an instruction is the table's -/

/-- Away from the instructions that branch on the state, the table has no row and the latch is not touched (60_exceptions.md R164). -/
theorem exec_plain_latch {i : Instr} {s t : State} (h : exec i s = .next t)
    (plain : i.mnemonic ∉ [.ret, .cll, .bcd, .ctr, .cfr, .drw, .sep, .senp, .wtp]) :
    raises i s = none ∧ t.fault = s.fault := by
  cases i
  case ret | cll | bcd | ctr | cfr | drw | sep | senp | wtp => simp [Instr.mnemonic] at plain
  all_goals
    cases h
    exact ⟨rfl, rfl⟩

/-- From `s` to `t` either the fatal condition of the instruction's row in the table is taken and nothing else is done, or
the table has none for it and the latch is not touched (60_exceptions.md R161, R164). -/
def LatchFollowsTable (i : Instr) (s t : State) : Prop :=
  (∃ f, raises i s = some f ∧ t = s.raise f) ∨ (raises i s = none ∧ t.fault = s.fault)

theorem exec_latchFollowsTable {i : Instr} {s t : State} (h : exec i s = .next t) : LatchFollowsTable i s t := by
  refine exec_elim (P := LatchFollowsTable i s) h (fun f hf => .inl ⟨f, hf, rfl⟩) (fun used hi => .inr ⟨?ret, rfl⟩)
    (fun nnn room hi => .inr ⟨?cll, rfl⟩) (fun x hi inRange => .inr ⟨?bcd, rfl⟩)
    (fun x hi inRange => .inr ⟨?ctr, rfl⟩) (fun x hi inRange => .inr ⟨?cfr, rfl⟩)
    (fun x y d hi inRange => .inr ⟨?drw, rfl⟩) (fun x hi index => .inr ⟨?sep, rfl⟩)
    (fun x hi index => .inr ⟨?senp, rfl⟩) (fun x k hi _ => .inr ⟨?captured, rfl⟩)
    (fun x hi _ => .inr ⟨?waits, rfl⟩) (fun plain => .inr (exec_plain_latch h plain))
  all_goals subst hi
  case ret | cll | sep | senp => exact if_neg (by omega)
  case bcd | ctr | cfr => exact if_pos (by omega)
  case drw =>
    by_cases hd : d.val = 0
    · exact if_pos hd
    · exact (if_neg hd).trans (if_pos (by omega))
  case captured | waits => rfl

theorem exec_fault_eq_raises {i : Instr} {s t : State} (hclear : s.fault = none) (h : exec i s = .next t) :
    t.fault = raises i s := by
  obtain ⟨f, hf, rfl⟩ | ⟨hnone, hkept⟩ := exec_latchFollowsTable h
  · exact hf.symm
  · rw [hkept, hclear, hnone]

/-- A fatal instruction changes nothing but the latch and the report (60_exceptions.md R161). -/
theorem exec_eq_raise_of_fault {i : Instr} {s t : State} (hclear : s.fault = none) (h : exec i s = .next t)
    (hfatal : t.fault ≠ none) : ∃ f, t = s.raise f := by
  obtain ⟨f, -, ht⟩ | ⟨-, hkept⟩ := exec_latchFollowsTable h
  · exact ⟨f, ht⟩
  · exact absurd (hkept.trans hclear) hfatal

/-! #### The rows of the table -/

/-- The rows of the table, read from the condition back to the instruction (60_exceptions.md R157 to R160). -/
theorem raises_cases {i : Instr} {s : State} {f : Fatal} (h : raises i s = some f) :
    ((∃ nnn, i = .cll nnn) ∧ s.sp.val = 16 ∧ f = .stackOverflow s.instrAddr) ∨
    (i = .ret ∧ s.sp.val = 0 ∧ f = .stackUnderflow s.instrAddr) ∨
    (∃ x, (i = .sep x ∨ i = .senp x) ∧ 15 < (s.reg x).toNat ∧ f = .invalidKeyIndex (s.reg x) s.instrAddr) ∨
    (∃ first a, f = .memoryOutOfRange first a) := by
  cases i
  case cll nnn =>
    obtain ⟨full, hf⟩ := Option.ite_none_right_eq_some.1 h
    exact .inl ⟨⟨nnn, rfl⟩, full, (Option.some.inj hf).symm⟩
  case ret =>
    obtain ⟨empty, hf⟩ := Option.ite_none_right_eq_some.1 h
    exact .inr (.inl ⟨rfl, empty, (Option.some.inj hf).symm⟩)
  case sep x | senp x =>
    obtain ⟨hbad, hf⟩ := Option.ite_none_right_eq_some.1 h
    exact .inr (.inr (.inl ⟨x, by simp, hbad, (Option.some.inj hf).symm⟩))
  case bcd | ctr | cfr =>
    obtain ⟨-, hf⟩ := Option.ite_none_left_eq_some.1 h
    exact .inr (.inr (.inr ⟨_, _, (Option.some.inj hf).symm⟩))
  case drw =>
    obtain ⟨-, h⟩ := Option.ite_none_left_eq_some.1 h
    obtain ⟨-, hf⟩ := Option.ite_none_left_eq_some.1 h
    exact .inr (.inr (.inr ⟨_, _, (Option.some.inj hf).symm⟩))
  all_goals cases h

theorem raises_stackOverflow_iff {i : Instr} {s : State} :
    (∃ a, raises i s = some (.stackOverflow a)) ↔ (∃ nnn, i = .cll nnn) ∧ s.sp.val = 16 := by
  constructor
  · rintro ⟨a, h⟩
    obtain ⟨hi, full, -⟩ | ⟨-, -, hf⟩ | ⟨x, -, -, hf⟩ | ⟨first, b, hf⟩ := raises_cases h
    · exact ⟨hi, full⟩
    all_goals cases hf
  · rintro ⟨⟨nnn, rfl⟩, full⟩
    exact ⟨_, if_pos full⟩

theorem raises_stackUnderflow_iff {i : Instr} {s : State} :
    (∃ a, raises i s = some (.stackUnderflow a)) ↔ i = .ret ∧ s.sp.val = 0 := by
  constructor
  · rintro ⟨a, h⟩
    obtain ⟨-, -, hf⟩ | ⟨hi, empty, -⟩ | ⟨x, -, -, hf⟩ | ⟨first, b, hf⟩ := raises_cases h
    case inr.inl => exact ⟨hi, empty⟩
    all_goals cases hf
  · rintro ⟨rfl, empty⟩
    exact ⟨_, if_pos empty⟩

theorem raises_invalidKeyIndex_iff {i : Instr} {s : State} :
    (∃ k a, raises i s = some (.invalidKeyIndex k a)) ↔
      ∃ x, (i = .sep x ∨ i = .senp x) ∧ 15 < (s.reg x).toNat := by
  constructor
  · rintro ⟨k, a, h⟩
    obtain ⟨-, -, hf⟩ | ⟨-, -, hf⟩ | ⟨x, hi, hbad, -⟩ | ⟨first, b, hf⟩ := raises_cases h
    case inr.inr.inl => exact ⟨x, hi, hbad⟩
    all_goals cases hf
  · rintro ⟨x, rfl | rfl, hbad⟩ <;> exact ⟨_, _, if_pos hbad⟩

/-! #### The claim -/

/-- Settles O50: the latch after an instruction is the table's, whose rows give the three sources, and a fatal
instruction is one `raise`, which keeps everything but the latch and the report. -/
theorem stackAndKeyFatalsHaveOneSource : Obligations.StackAndKeyFatalsHaveOneSource := by
  intro i s t hclear h
  have htable := exec_fault_eq_raises hclear h
  refine ⟨?overflow, ?underflow, ?keyIndex, fun hfatal => ?stackKept, fun hsource => ?frame⟩
  case overflow => simp only [htable, raises_stackOverflow_iff]
  case underflow => simp only [htable, raises_stackUnderflow_iff]
  case keyIndex => simp only [htable, raises_invalidKeyIndex_iff]
  case stackKept =>
    obtain ⟨f, rfl⟩ := exec_eq_raise_of_fault hclear h hfatal
    exact ⟨rfl, rfl, rfl⟩
  case frame =>
    have hfatal : t.fault ≠ none := by
      obtain ⟨a, hf⟩ | ⟨a, hf⟩ | ⟨k, a, hf⟩ := hsource <;> simp [hf]
    obtain ⟨f, rfl⟩ := exec_eq_raise_of_fault hclear h hfatal
    exact keepsAllBut_raise s f

end Sys2Proof.Machine
end

section
/-! SUPPORT. What an instruction can do to `pc`, the stack, memory, the latch and the report, said once over all instructions. -/

namespace Sys2Proof.Machine

/-- Everything an instruction can leave in `pc` (40_control_flow.md R71 to R78, 44_display_input.md R134 to R136). -/
inductive PcAfter (i : Instr) (s : State) : Addr → Prop
  | kept : PcAfter i s s.pc
  | skipped : PcAfter i s (s.pc + 2)
  | returned (k : Fin 16) (top : s.sp.val = k.val + 1) : PcAfter i s s.stack[k]
  | jumped (nnn : Addr12) (jump : i = .jmp nnn ∨ i = .cll nnn) : PcAfter i s (zext16 nnn)
  | indexed (nnn : Addr12) (jump : i = .jmpr nnn) : PcAfter i s (s.indexedTarget nnn)
  | waited : PcAfter i s s.instrAddr

theorem pcAfter_skipIf (i : Instr) (s : State) (c : Bool) : PcAfter i s (s.skipIf c).pc := by
  cases c
  · exact .kept
  · exact .skipped

theorem exec_pcAfter {i : Instr} {s t : State} (h : exec i s = .next t) : PcAfter i s t.pc := by
  refine exec_elim (P := fun t => PcAfter i s t.pc) h (fun _ _ => .kept)
    (fun used _ => .returned ⟨s.sp.val - 1, by omega⟩ (show _ = s.sp.val - 1 + 1 by omega))
    (fun nnn _ hi => .jumped nnn (.inr hi)) (fun _ _ _ => .kept) (fun _ _ _ => .kept) ?cfr
    (fun _ _ _ _ _ => .kept) (fun _ _ _ => pcAfter_skipIf i s _) (fun _ _ _ => pcAfter_skipIf i s _)
    (fun _ _ _ _ => .kept) (fun _ _ _ => .waited) (fun plain => ?plain)
  case cfr =>
    intros
    rw [setRegsUpTo_pc]
    exact .kept
  cases i
  case ret | cll | bcd | ctr | cfr | drw | sep | senp | wtp => simp [Instr.mnemonic] at plain
  all_goals injection h with h; subst h
  case jmp nnn => exact .jumped nnn (.inl rfl)
  case jmpr nnn => exact .indexed nnn rfl
  case sev | snev | ser | sner => exact pcAfter_skipIf _ s _
  all_goals exact .kept

/-- Everything an instruction can leave in the stack pointer and the stack (40_control_flow.md R71, R73). -/
inductive StackAfter (i : Instr) (s : State) : Fin 17 → Vector Addr 16 → Prop
  | kept : StackAfter i s s.sp s.stack
  | popped (used : 0 < s.sp.val) (ret : i = .ret) : StackAfter i s ⟨s.sp.val - 1, by omega⟩ s.stack
  | pushed (room : s.sp.val < 16) (nnn : Addr12) (call : i = .cll nnn) :
      StackAfter i s ⟨s.sp.val + 1, by omega⟩ (s.stack.set s.sp.val s.pc)

theorem exec_stackAfter {i : Instr} {s t : State} (h : exec i s = .next t) : StackAfter i s t.sp t.stack := by
  refine exec_elim (P := fun t => StackAfter i s t.sp t.stack) h (fun _ _ => .kept) (fun used hi => .popped used hi)
    (fun nnn room hi => .pushed room nnn hi) (fun _ _ _ => .kept) (fun _ _ _ => .kept) ?cfr
    (fun _ _ _ _ _ => .kept) (fun _ _ _ => .kept) (fun _ _ _ => .kept) (fun _ _ _ _ => .kept)
    (fun _ _ _ => .kept) (fun plain => ?plain)
  case cfr =>
    intros
    rw [setRegsUpTo_sp, setRegsUpTo_stack]
    exact .kept
  cases i
  case ret | cll | bcd | ctr | cfr | drw | sep | senp | wtp => simp [Instr.mnemonic] at plain
  all_goals
    cases h
    exact .kept

/-- Everything an instruction can leave in memory: BCD and CTR store bytes inside the address space (20_memory.md R32, R37). -/
inductive MemAfter (i : Instr) (s : State) : Memory → Prop
  | kept : MemAfter i s s.mem
  | stored (bytes : List Byte) (store : i.mnemonic ∈ [.bcd, .ctr])
      (inRange : s.i.toNat + bytes.length ≤ Config.memSize) : MemAfter i s (s.mem.writeBytes s.i.toNat bytes)

theorem exec_memAfter {i : Instr} {s t : State} (h : exec i s = .next t) : MemAfter i s t.mem := by
  refine exec_elim (P := fun t => MemAfter i s t.mem) h (fun _ _ => .kept) (fun _ _ => .kept)
    (fun _ _ _ => .kept) (fun x hi inRange => ?bcd) (fun x hi inRange => ?ctr) ?cfr (fun _ _ _ _ _ => .kept)
    (fun _ _ _ => .kept) (fun _ _ _ => .kept) (fun _ _ _ _ => .kept) (fun _ _ _ => .kept) (fun plain => ?plain)
  case bcd =>
    rw [storeBytes_mem]
    exact .stored _ (by simp [hi, Instr.mnemonic]) inRange
  case ctr =>
    rw [storeBytes_mem]
    exact .stored _ (by simp [hi, Instr.mnemonic]) (by rwa [regsUpTo_length])
  case cfr =>
    intros
    rw [setRegsUpTo_mem]
    exact .kept
  cases i
  case ret | cll | bcd | ctr | cfr | drw | sep | senp | wtp => simp [Instr.mnemonic] at plain
  all_goals
    cases h
    exact .kept

/-- Everything an instruction can leave in the latch and the report (60_exceptions.md R161, 40_control_flow.md R70). -/
inductive LatchAfter (i : Instr) (s : State) : Option Fatal → Option TickReport → Prop
  | kept : LatchAfter i s s.fault s.report
  | halted : LatchAfter i s s.fault (some .halted)
  | raised (f : Fatal) (row : raises i s = some f) : LatchAfter i s (some f) (some .fatal)

theorem exec_latchAfter {i : Instr} {s t : State} (h : exec i s = .next t) : LatchAfter i s t.fault t.report := by
  refine exec_elim (P := fun t => LatchAfter i s t.fault t.report) h (fun f hf => .raised f hf) (fun _ _ => .kept)
    (fun _ _ _ => .kept) (fun _ _ _ => .kept) (fun _ _ _ => .kept) ?cfr
    (fun _ _ _ _ _ => .kept) (fun _ _ _ => .kept) (fun _ _ _ => .kept) (fun _ _ _ _ => .kept)
    (fun _ _ _ => .kept) (fun plain => ?plain)
  case cfr =>
    intros
    rw [setRegsUpTo_fault, setRegsUpTo_report]
    exact .kept
  cases i
  case ret | cll | bcd | ctr | cfr | drw | sep | senp | wtp => simp [Instr.mnemonic] at plain
  case ext =>
    cases h
    exact .halted
  all_goals
    cases h
    exact .kept

end Sys2Proof.Machine
end

section
/-! SUPPORT. The machine invariant (10_state.md R16, 60_exceptions.md R161): it holds at reset, the fetch establishes what an instruction needs, and every step of any agent keeps it. -/

namespace Sys2Proof.Machine

/-! #### Reset -/

theorem machineInv_reset : MachineInv State.reset := by
  refine ⟨Memory.wf_nil, by decide, fun k => ?_, by decide⟩
  simp [State.reset]

/-- Settles O2: the stack is empty and PROGRAM_START is even and in bounds. -/
theorem resetMeetsTheInvariant : Obligations.ResetMeetsTheInvariant :=
  ⟨machineInv_reset, by decide, fun k hk => absurd hk (Nat.not_lt_zero _)⟩

/-! #### Instructions -/

/-- What the fetch leaves of the invariant for the instruction: `pc` is two past an address a word was fetched from and
the latch is clear. -/
def Fetched (s : State) : Prop :=
  s.mem.wf ∧ (2 ≤ s.pc.toNat ∧ s.pc.toNat ≤ 4096) ∧ (∀ k : Fin 16, s.stack[k].toNat ≤ 4096) ∧
  s.fault = none ∧ s.report = some .continued

theorem fetched_advance {s : State} (inv : MachineInv s) (hpc : s.pc.toNat < 4095) (hfault : s.fault = none) :
    Fetched s.advance := by
  obtain ⟨hmem, -, hstack, -⟩ := inv
  have hnext : s.advance.pc.toNat = s.pc.toNat + 2 := by rw [advance_pc]; bv_omega
  exact ⟨hmem, by omega, hstack, hfault, rfl⟩

theorem byteToAddr_toNat (b : Byte) : (byteToAddr b).toNat = b.toNat := by
  have := b.isLt
  simp only [byteToAddr, BitVec.truncate_eq_setWidth, BitVec.toNat_setWidth]
  omega

/-- The sum of JMPR is at most `0xFFF + 0xFF` and does not wrap (40_control_flow.md R78). -/
theorem indexedTarget_toNat (s : State) (nnn : Addr12) :
    (s.indexedTarget nnn).toNat = nnn.toNat + (s.reg 0).toNat := by
  have := nnn.isLt
  have := (s.reg 0).isLt
  rw [State.indexedTarget, BitVec.toNat_add, zext16_toNat, byteToAddr_toNat]
  omega

theorem pcAfter_le {i : Instr} {s : State} {a : Addr} (fetched : Fetched s) (h : PcAfter i s a) :
    a.toNat ≤ 0x10FE := by
  obtain ⟨-, ⟨hlow, hhigh⟩, hstack, -, -⟩ := fetched
  cases h with
  | kept => omega
  | skipped => bv_omega
  | returned k _ => exact (hstack k).trans (by omega)
  | jumped nnn _ => exact (zext16_toNat_le nnn).trans (by omega)
  | indexed nnn _ =>
    have := nnn.isLt
    have := (s.reg 0).isLt
    rw [indexedTarget_toNat]
    omega
  | waited =>
    rw [State.instrAddr]
    bv_omega

theorem stackAfter_le {i : Instr} {s : State} {sp : Fin 17} {stack : Vector Addr 16} (fetched : Fetched s)
    (h : StackAfter i s sp stack) (k : Fin 16) : stack[k].toNat ≤ 4096 := by
  obtain ⟨-, ⟨-, hpc⟩, hstack, -, -⟩ := fetched
  cases h with
  | kept => exact hstack k
  | popped _ _ => exact hstack k
  | pushed room nnn _ =>
    rw [Fin.getElem_fin, Vector.getElem_set]
    split
    · exact hpc
    · exact hstack k

theorem memAfter_wf {i : Instr} {s : State} {m : Memory} (wf : s.mem.wf) (h : MemAfter i s m) : m.wf := by
  cases h with
  | kept => exact wf
  | stored bytes _ inRange => exact Memory.wf_writeBytes wf inRange

theorem latchAfter_iff {i : Instr} {s : State} {fault : Option Fatal} {report : Option TickReport}
    (hfault : s.fault = none) (hreport : s.report = some .continued) (h : LatchAfter i s fault report) :
    report = some .fatal ↔ fault ≠ none := by
  cases h <;> simp [hfault, hreport]

theorem exec_inv {i : Instr} {s t : State} (fetched : Fetched s) (h : exec i s = .next t) : MachineInv t :=
  have ⟨hmem, _, _, hfault, hreport⟩ := fetched
  ⟨memAfter_wf hmem (exec_memAfter h), pcAfter_le fetched (exec_pcAfter h),
    stackAfter_le fetched (exec_stackAfter h), latchAfter_iff hfault hreport (exec_latchAfter h)⟩

/-! #### Every step -/

/-- Taking a fatal condition keeps the invariant, since it sets the latch and the report together. -/
theorem inv_raise {s : State} (inv : MachineInv s) (f : Fatal) : MachineInv (s.raise f) := by
  obtain ⟨hmem, hpc, hstack, -⟩ := inv
  exact ⟨hmem, hpc, hstack, by simp⟩

theorem cycle_inv {s t : State} (inv : MachineInv s) (hfault : s.fault = none) (h : cycle s = .next t) :
    MachineInv t := by
  obtain ⟨-, hc⟩ | ⟨hpc, -, hc⟩ | ⟨hpc, i, -, hc⟩ := cycle_cases s
  · cases hc.symm.trans h
    exact inv_raise inv _
  · cases hc.symm.trans h
    obtain ⟨hmem, -, hstack, -⟩ := inv
    exact ⟨hmem, by simp; bv_omega, hstack, by simp⟩
  · exact exec_inv (fetched_advance inv hpc hfault) (hc.symm.trans h)

theorem tick_inv {inp : TickInput} {s t : State} (inv : MachineInv s) (h : tick inp s = .next t) : MachineInv t := by
  cases hfault : s.fault with
  | some f =>
    cases (tick_faulted s inp hfault).symm.trans h
    exact inv
  | none =>
    refine cycle_inv ?_ ?_ ((tick_clear s inp hfault).symm.trans h)
    · exact inv_congr inv rfl rfl rfl rfl rfl
    · exact hfault

theorem loadImage_inv {s : State} {image : List Word} (inv : MachineInv s) (fits : imageFits image = true) :
    MachineInv (s.loadImage image) := by
  obtain ⟨hmem, hpc, hstack, hlatch⟩ := inv
  have inRange : Config.programStart.toNat + (bytesOfWords image).length ≤ Config.memSize := by
    rw [bytesOfWords_length]
    exact of_decide_eq_true fits
  exact ⟨Memory.wf_writeBytes hmem inRange, hpc, hstack, hlatch⟩

/-- Settles O3, by the agent that makes the step: the engine by the fetch and the instruction, TimerTick and a reset by
the fields they leave, the loader by its range. -/
theorem everyStepKeepsTheInvariant : Obligations.EveryStepKeepsTheInvariant := by
  intro s t inv h
  obtain ⟨-, h⟩ | ⟨inp, rest, -, h⟩ | ⟨rest, -, rfl⟩ | ⟨rest, -, rfl⟩ |
    ⟨image, rest, -, -, fits, rfl⟩ := step_cases s h
  · refine tick_inv ?_ h
    exact inv_congr inv rfl rfl rfl rfl rfl
  · refine tick_inv ?_ h
    exact inv_congr inv rfl rfl rfl rfl rfl
  · exact inv_congr inv rfl rfl rfl rfl rfl
  · exact inv_congr machineInv_reset rfl rfl rfl rfl rfl
  · refine loadImage_inv ?_ fits
    exact inv_congr inv rfl rfl rfl rfl rfl

end Sys2Proof.Machine
end

section
/-! SUPPORT. Even addresses (70_reset_and_hazards.md R190): an instruction with an even target, and with it every step, keeps `pc` and the stack even. -/

namespace Sys2Proof.Machine

/-- The program's obligation of R190 for the next tick: the instruction it runs has an even target. -/
def NextTargetEven (s : State) : Prop := ∀ i, NextInstr s i → EvenTarget i s

theorem evenTarget_congr {i : Instr} {s t : State} (v : t.v = s.v) (h : EvenTarget i s) : EvenTarget i t := by
  cases i
  case jmpr nnn => simpa only [EvenTarget, reg_congr v] using h
  all_goals exact h

theorem nextTargetEven_congr {s t : State} (h : NextTargetEven s) (fault : t.fault = s.fault) (pc : t.pc = s.pc)
    (mem : t.mem = s.mem) (v : t.v = s.v) : NextTargetEven t :=
  fun i hnext => evenTarget_congr v (h i (nextInstr_congr hnext fault.symm pc.symm mem.symm))

theorem evenAddresses_reset : EvenAddresses State.reset := resetMeetsTheInvariant.2

theorem evenAddresses_advance {s : State} (even : EvenAddresses s) : EvenAddresses s.advance := by
  obtain ⟨hpc, hstack⟩ := even
  exact ⟨by rw [advance_pc]; bv_omega, hstack⟩

theorem evenAddresses_raise {s : State} (even : EvenAddresses s) (f : Fatal) : EvenAddresses (s.raise f) :=
  evenAddresses_congr even rfl rfl rfl

theorem pcAfter_even {i : Instr} {s : State} {a : Addr} (even : EvenAddresses s) (target : EvenTarget i s)
    (h : PcAfter i s a) : a.toNat % 2 = 0 := by
  obtain ⟨hpc, hstack⟩ := even
  cases h with
  | kept => exact hpc
  | skipped => bv_omega
  | returned k top => exact hstack k (by omega)
  | jumped nnn jump =>
    rw [zext16_toNat]
    obtain rfl | rfl := jump <;> exact target
  | indexed nnn jump =>
    rw [indexedTarget_toNat]
    subst jump
    exact target
  | waited =>
    rw [State.instrAddr]
    bv_omega

theorem stackAfter_even {i : Instr} {s : State} {sp : Fin 17} {stack : Vector Addr 16} (even : EvenAddresses s)
    (h : StackAfter i s sp stack) (k : Fin 16) (inUse : k.val < sp.val) : stack[k].toNat % 2 = 0 := by
  obtain ⟨hpc, hstack⟩ := even
  cases h with
  | kept => exact hstack k inUse
  | popped used _ => exact hstack k (by simp only at inUse; omega)
  | pushed room nnn _ =>
    rw [Fin.getElem_fin, Vector.getElem_set]
    split
    · exact hpc
    · exact hstack k (by simp only at inUse; omega)

theorem exec_even {i : Instr} {s t : State} (even : EvenAddresses s) (target : EvenTarget i s)
    (h : exec i s = .next t) : EvenAddresses t :=
  ⟨pcAfter_even even target (exec_pcAfter h), stackAfter_even even (exec_stackAfter h)⟩

theorem cycle_even {s t : State} (even : EvenAddresses s) (target : NextTargetEven s) (hfault : s.fault = none)
    (h : cycle s = .next t) : EvenAddresses t := by
  obtain ⟨-, hc⟩ | ⟨-, -, hc⟩ | ⟨hpc, i, hdec, hc⟩ := cycle_cases s
  · cases hc.symm.trans h
    exact evenAddresses_raise even _
  · cases hc.symm.trans h
    exact evenAddresses_raise (evenAddresses_advance even) _
  · exact exec_even (evenAddresses_advance even) (evenTarget_congr (advance_v s) (target i ⟨hfault, hpc, hdec⟩))
      (hc.symm.trans h)

theorem tick_even {inp : TickInput} {s t : State} (even : EvenAddresses s) (target : NextTargetEven s)
    (h : tick inp s = .next t) : EvenAddresses t := by
  cases hfault : s.fault with
  | some f =>
    cases (tick_faulted s inp hfault).symm.trans h
    exact even
  | none =>
    refine cycle_even ?_ ?_ ?_ ((tick_clear s inp hfault).symm.trans h)
    · exact evenAddresses_congr even rfl rfl rfl
    · exact nextTargetEven_congr target rfl rfl rfl rfl
    · exact hfault

/-- Settles O4, by the agent that makes the step: a tick by the fetch and the instruction, a reset by PROGRAM_START, the
others because they write neither `pc` nor the stack. -/
theorem programCounterStaysEven : Obligations.ProgramCounterStaysEven := by
  intro s t even target h
  obtain ⟨-, h⟩ | ⟨inp, rest, -, h⟩ | ⟨rest, -, rfl⟩ | ⟨rest, -, rfl⟩ | ⟨image, rest, -, -, -, rfl⟩ := step_cases s h
  · refine tick_even ?_ ?_ h
    · exact evenAddresses_congr even rfl rfl rfl
    · exact nextTargetEven_congr target rfl rfl rfl rfl
  · refine tick_even ?_ ?_ h
    · exact evenAddresses_congr even rfl rfl rfl
    · exact nextTargetEven_congr target rfl rfl rfl rfl
  · exact evenAddresses_congr even rfl rfl rfl
  · exact evenAddresses_congr evenAddresses_reset rfl rfl rfl
  · exact evenAddresses_congr even rfl rfl rfl

end Sys2Proof.Machine
end

section
/-! SUPPORT. The instruction word (30_encoding.md R51 to R59, R63): a word is made of its fields, the patterns of the table read in terms of the fields, and encoding, decoding and the table agree. -/

namespace Sys2Proof

/-! #### A word is made of its fields -/

theorem wordXYD_fields (w : Word) :
    wordXYD (fields w).group (fields w).x.toFin (fields w).y.toFin (fields w).d = w := by
  ext k hk
  simp only [wordXYD, nibble, fields, BitVec.ofFin_toFin, ← BitVec.getLsbD_eq_getElem, BitVec.getLsbD_append,
    BitVec.getLsbD_extractLsb']
  grind

theorem wordXKK_fields (w : Word) : wordXKK (fields w).group (fields w).x.toFin (fields w).kk = w := by
  ext k hk
  simp only [wordXKK, nibble, fields, BitVec.ofFin_toFin, ← BitVec.getLsbD_eq_getElem, BitVec.getLsbD_append,
    BitVec.getLsbD_extractLsb']
  grind

theorem wordNNN_fields (w : Word) : wordNNN (fields w).group (fields w).nnn = w := by
  ext k hk
  simp only [wordNNN, fields, ← BitVec.getLsbD_eq_getElem, BitVec.getLsbD_append, BitVec.getLsbD_extractLsb']
  grind

/-! #### Encoding and decoding -/

theorem select_encode (i : Instr) : select (encode i) = some i := by
  cases i
  case ext | cld | ret => decide
  all_goals
    simp [encode, select, fields_wordNNN, fields_wordXKK, fields_wordXYD, decodeGroup8, decodeGroupE, decodeGroupF]

/-- Settles O11, since the fields of an encoded word are the operands it was built from. -/
theorem decodeOfEncode : Obligations.DecodeOfEncode :=
  fun i => decode_eq_ok.2 (select_encode i)

theorem eq_ofNat_of_toNat {w : Nat} {a : BitVec w} {n : Nat} (h : a.toNat = n) : a = BitVec.ofNat w n := by
  rw [← h, BitVec.ofNat_toNat, BitVec.setWidth_eq]

/-- The word with the `y` nibble cleared has the other fields of the word (30_encoding.md R56). -/
theorem wordXYD_y_cleared (w : Word) :
    wordXYD (fields w).group (fields w).x.toFin 0 (fields w).d = w &&& 0xFF0F := by
  have hmask : (0xFF0F : Word) = 15#4 ++ 15#4 ++ 0#4 ++ 15#4 := by decide
  have hones (a : Nibble) : a &&& 15#4 = a := by revert a; decide
  conv_rhs =>
    rw [← wordXYD_fields w, wordXYD, hmask, BitVec.and_append, BitVec.and_append, BitVec.and_append, BitVec.and_zero,
      hones, hones, hones]
  rfl

/-- The word that `i` was read from: its encoding, or for RSH and LSH any word that differs in the `y` nibble alone. -/
def ReadFrom (w : Word) (i : Instr) : Prop :=
  if i.mnemonic = .rsh ∨ i.mnemonic = .lsh then encode i = w &&& 0xFF0F else encode i = w

theorem readFrom_decodeGroup0 {w : Word} {i : Instr} (h : decodeGroup0 w = some i) : ReadFrom w i := by
  unfold decodeGroup0 at h
  split_ifs at h <;> cases h <;> subst w <;> rfl

theorem readFrom_decodeGroup8 {w : Word} {i : Instr} (hgroup : (fields w).group = 0x8)
    (h : decodeGroup8 (fields w).x.toFin (fields w).y.toFin (fields w).d = some i) : ReadFrom w i := by
  have hw := wordXYD_fields w
  have hclear := wordXYD_y_cleared w
  unfold decodeGroup8 at h
  split at h
  case h_7 hd | h_9 hd =>
    cases h
    rw [hgroup, eq_ofNat_of_toNat hd] at hclear
    exact hclear
  case h_10 => cases h
  all_goals
    rename_i hd
    cases h
    rw [hgroup, eq_ofNat_of_toNat hd] at hw
    exact hw

theorem readFrom_decodeGroupE {w : Word} {i : Instr} (hgroup : (fields w).group = 0xE)
    (h : decodeGroupE (fields w).x.toFin (fields w).kk = some i) : ReadFrom w i := by
  have hw := wordXKK_fields w
  unfold decodeGroupE at h
  split at h
  case h_3 => cases h
  all_goals
    rename_i hkk
    cases h
    rw [hgroup, eq_ofNat_of_toNat hkk] at hw
    exact hw

theorem readFrom_decodeGroupF {w : Word} {i : Instr} (hgroup : (fields w).group = 0xF)
    (h : decodeGroupF (fields w).x.toFin (fields w).kk = some i) : ReadFrom w i := by
  have hw := wordXKK_fields w
  unfold decodeGroupF at h
  split at h
  case h_10 => cases h
  all_goals
    rename_i hkk
    cases h
    rw [hgroup, eq_ofNat_of_toNat hkk] at hw
    exact hw

theorem readFrom_of_select {w : Word} {i : Instr} (h : select w = some i) : ReadFrom w i := by
  have hxyd := wordXYD_fields w
  have hxkk := wordXKK_fields w
  have hnnn := wordNNN_fields w
  simp only [select] at h
  split at h
  case h_1 => exact readFrom_decodeGroup0 h
  case h_9 hgroup => exact readFrom_decodeGroup8 (eq_ofNat_of_toNat hgroup) h
  case h_15 hgroup => exact readFrom_decodeGroupE (eq_ofNat_of_toNat hgroup) h
  case h_16 hgroup => exact readFrom_decodeGroupF (eq_ofNat_of_toNat hgroup) h
  case h_17 => cases h
  case h_2 hgroup | h_3 hgroup | h_11 hgroup | h_12 hgroup =>
    cases h
    rw [eq_ofNat_of_toNat hgroup] at hnnn
    exact hnnn
  case h_4 hgroup | h_5 hgroup | h_7 hgroup | h_8 hgroup | h_13 hgroup =>
    cases h
    rw [eq_ofNat_of_toNat hgroup] at hxkk
    exact hxkk
  case h_6 hgroup | h_10 hgroup =>
    obtain ⟨hd, hi⟩ := Option.ite_none_right_eq_some.1 h
    cases hi
    rw [eq_ofNat_of_toNat hgroup, hd] at hxyd
    exact hxyd
  case h_14 hgroup =>
    cases h
    rw [eq_ofNat_of_toNat hgroup] at hxyd
    exact hxyd

/-- Settles O12, by the format of the group that the word selects. -/
theorem encodeOfDecode : Obligations.EncodeOfDecode :=
  fun _ _ h => readFrom_of_select (decode_eq_ok.1 h)

/-! #### The table -/

theorem encodesItsRow (i : Instr) : Laws.EncodesItsRow.Statement i := by
  cases i
  case ext => exact Laws.EncodesItsRow.ext
  case cld => exact Laws.EncodesItsRow.cld
  case ret => exact Laws.EncodesItsRow.ret
  case jmp => exact Laws.EncodesItsRow.jmp _
  case cll => exact Laws.EncodesItsRow.cll _
  case sev => exact Laws.EncodesItsRow.sev _ _
  case snev => exact Laws.EncodesItsRow.snev _ _
  case ser => exact Laws.EncodesItsRow.ser _ _
  case stv => exact Laws.EncodesItsRow.stv _ _
  case addv => exact Laws.EncodesItsRow.addv _ _
  case str => exact Laws.EncodesItsRow.str _ _
  case or => exact Laws.EncodesItsRow.or _ _
  case and => exact Laws.EncodesItsRow.and _ _
  case xor => exact Laws.EncodesItsRow.xor _ _
  case add => exact Laws.EncodesItsRow.add _ _
  case sub => exact Laws.EncodesItsRow.sub _ _
  case rsh => exact Laws.EncodesItsRow.rsh _
  case subr => exact Laws.EncodesItsRow.subr _ _
  case lsh => exact Laws.EncodesItsRow.lsh _
  case sner => exact Laws.EncodesItsRow.sner _ _
  case sti => exact Laws.EncodesItsRow.sti _
  case jmpr => exact Laws.EncodesItsRow.jmpr _
  case rnd => exact Laws.EncodesItsRow.rnd _ _
  case drw => exact Laws.EncodesItsRow.drw _ _ _
  case sep => exact Laws.EncodesItsRow.sep _
  case senp => exact Laws.EncodesItsRow.senp _
  case strd => exact Laws.EncodesItsRow.strd _
  case wtp => exact Laws.EncodesItsRow.wtp _
  case stdr => exact Laws.EncodesItsRow.stdr _
  case strs => exact Laws.EncodesItsRow.strs _
  case addi => exact Laws.EncodesItsRow.addi _
  case stis => exact Laws.EncodesItsRow.stis _
  case bcd => exact Laws.EncodesItsRow.bcd _
  case ctr => exact Laws.EncodesItsRow.ctr _
  case cfr => exact Laws.EncodesItsRow.cfr _

/-- The rows of RSH and LSH do not look at the `y` nibble (30_encoding.md R56). -/
theorem row_mask_ignores_y :
    ∀ r ∈ opcodeTable, r.mnemonic = .rsh ∨ r.mnemonic = .lsh → 0xFF0F &&& r.mask = r.mask := by
  decide

theorem row_of_select {w : Word} {i : Instr} (h : select w = some i) :
    ∃ r ∈ opcodeTable, r.mnemonic = i.mnemonic ∧ w &&& r.mask = r.bits := by
  obtain ⟨r, hr, hname, hbits⟩ := encodesItsRow i
  refine ⟨r, hr, hname, ?_⟩
  have hread := readFrom_of_select h
  unfold ReadFrom at hread
  split at hread
  case isTrue hshift =>
    rwa [hread, BitVec.and_assoc, row_mask_ignores_y r hr (hname ▸ hshift)] at hbits
  case isFalse => rwa [hread] at hbits

/-- Any two different rows disagree on a bit that both masks look at (30_encoding.md R52). -/
theorem table_disjoint : ∀ r ∈ opcodeTable, ∀ r' ∈ opcodeTable,
    r.bits &&& r'.mask = r'.bits &&& r.mask → r = r' := by
  decide

/-- Settles O9: two rows that select one word agree on the bits that both masks look at. -/
theorem noWordSelectsTwoRows : Obligations.NoWordSelectsTwoRows := by
  intro w r hr r' hr' h h'
  refine table_disjoint r hr r' hr' ?_
  rw [← h, ← h', BitVec.and_assoc, BitVec.and_assoc, BitVec.and_comm r.mask]

theorem fields_and_group (w m : Word) : (fields (w &&& m)).group = (fields w).group &&& (fields m).group :=
  BitVec.extractLsb'_and

theorem fields_and_d (w m : Word) : (fields (w &&& m)).d = (fields w).d &&& (fields m).d :=
  BitVec.extractLsb'_and

theorem fields_and_kk (w m : Word) : (fields (w &&& m)).kk = (fields w).kk &&& (fields m).kk :=
  BitVec.extractLsb'_and

/-- The rows of group 0, which compare the whole word, select words that decode (30_encoding.md R56). -/
theorem select_bits_of_whole_word : ∀ r ∈ opcodeTable, r.mask = 0xFFFF → select r.bits ≠ none := by
  decide

/-- The fields that a row fixes are the ones the decoder looks at, so the decoder accepts every word of a row. -/
theorem select_of_row {w : Word} {r : OpcodeRow} (hr : r ∈ opcodeTable) (h : w &&& r.mask = r.bits) :
    select w ≠ none := by
  have hgroup : (fields w).group &&& (fields r.mask).group = (fields r.bits).group := by rw [← fields_and_group, h]
  have hd : (fields w).d &&& (fields r.mask).d = (fields r.bits).d := by rw [← fields_and_d, h]
  have hkk : (fields w).kk &&& (fields r.mask).kk = (fields r.bits).kk := by rw [← fields_and_kk, h]
  have ones4 (a : Nibble) : a &&& 15#4 = a := BitVec.and_allOnes
  have ones8 (a : Byte) : a &&& 255#8 = a := BitVec.and_allOnes
  by_cases hwhole : r.mask = 0xFFFF
  · have hw : w = r.bits := by
      rw [← h, hwhole]
      exact BitVec.and_allOnes.symm
    exact hw ▸ select_bits_of_whole_word r hr hwhole
  fin_cases hr
  · exact absurd rfl hwhole
  · exact absurd rfl hwhole
  · exact absurd rfl hwhole
  all_goals
    simp [fields, ones4, ones8] at hgroup hd hkk
    simp [select, fields, hgroup, hd, hkk, decodeGroup8, decodeGroupE, decodeGroupF]

/-- Settles O10: a decoded word is in its instruction's row because the encoding is, and the decoder accepts every word
of a row. -/
theorem decoderAgreesWithTheTable : Obligations.DecoderAgreesWithTheTable := by
  intro w
  refine ⟨fun i h => row_of_select (decode_eq_ok.1 h), fun noRow => ?rejected, fun h r hr hbits => ?noRow⟩
  case rejected =>
    refine decode_eq_error.2 ⟨Option.eq_none_iff_forall_ne_some.2 fun i h => ?_, rfl⟩
    obtain ⟨r, hr, -, hbits⟩ := row_of_select h
    exact noRow r hr hbits
  case noRow => exact select_of_row hr hbits (decode_eq_error.1 h).1

/-- Settles O8, by running the decoder on each word. -/
theorem sampleWordsDecode : Obligations.SampleWordsDecode := by
  unfold Obligations.SampleWordsDecode
  decide

/-! #### Operand numbers -/

theorem raw_wf (i : Instr) : i.raw.wf = true := by
  have hnnn (nnn : Addr12) : nnn.toNat < 4096 := nnn.isLt
  have hkk (kk : Byte) : kk.toNat < 256 := kk.isLt
  cases i <;> simp [Instr.raw, RawInstr.wf, Instr.mnemonic, Instr.operands, Mnemonic.shape, Shape.bounds, hnnn, hkk]

theorem toInstr_raw (i : Instr) : i.raw.toInstr = some i := by
  rw [RawInstr.toInstr, if_pos (raw_wf i)]
  cases i <;> simp [Instr.raw, Instr.mnemonic, Instr.operands, Mnemonic.instr]

/-- Settles O13: every operand is below the bound of its field, and a number below the bound is taken as it is. -/
theorem everyInstructionIsWellFormed : Obligations.EveryInstructionIsWellFormed :=
  fun i => ⟨raw_wf i, toInstr_raw i⟩

end Sys2Proof
end

section
/-! SUPPORT. What a tick and a reset do: the fetch and its fatal conditions (30_encoding.md R50 to R52, 20_memory.md R33), a faulted machine, and that only the loader can stop the model. -/

namespace Sys2Proof.Machine

/-! #### Every instruction and every tick answers -/

theorem guarded_answers (s : State) (n : Nat) (k : State) : ∃ t, s.guarded n k = .next t := by
  obtain ⟨-, h⟩ | ⟨-, h⟩ := guarded_cases s n k <;> exact ⟨_, h⟩

theorem skipOnKey_answers (s : State) (x : Reg) (wanted : Bool) : ∃ t, s.skipOnKey x wanted = .next t := by
  by_cases index : (s.reg x).toNat ≤ 15
  · exact ⟨_, skipOnKey_of_index s x wanted index⟩
  · exact ⟨_, skipOnKey_of_badIndex s x wanted (by omega)⟩

/-- Settles O54, by the branches of the instructions that branch on the state; the others answer by their equation. -/
theorem everyInstructionAnswers : Obligations.EveryInstructionAnswers := by
  intro i s
  cases i
  case ret =>
    by_cases used : 0 < s.sp.val
    · exact ⟨_, exec_ret_of_used s used⟩
    · exact ⟨_, exec_ret_of_empty s (by omega)⟩
  case cll nnn =>
    by_cases room : s.sp.val < 16
    · exact ⟨_, exec_cll_of_room s nnn room⟩
    · exact ⟨_, exec_cll_of_full s nnn (by have := s.sp.isLt; omega)⟩
  case bcd | ctr | cfr | drw => exact guarded_answers s _ _
  case sep | senp => exact skipOnKey_answers s _ _
  all_goals exact ⟨_, rfl⟩

theorem cycle_answers (s : State) : ∃ t, cycle s = .next t := by
  obtain ⟨-, h⟩ | ⟨-, -, h⟩ | ⟨-, i, -, h⟩ := cycle_cases s
  · exact ⟨_, h⟩
  · exact ⟨_, h⟩
  · rw [h]
    exact everyInstructionAnswers i _

theorem tick_answers (inp : TickInput) (s : State) : ∃ t, tick inp s = .next t := by
  cases hfault : s.fault with
  | some f => exact ⟨s, tick_faulted s inp hfault⟩
  | none =>
    rw [tick_clear s inp hfault]
    exact cycle_answers _

/-- A load stops the model exactly when it breaks one of its two obligations (70_reset_and_hazards.md R184, R186). -/
theorem hostLoad_cases (image : List Word) (s : State) :
    (s.report = none ∧ imageFits image = true ∧ hostLoad image s = .next (s.loadImage image)) ∨
    (s.report ≠ none ∧ hostLoad image s = .fault .loadAfterFirstTick) ∨
    (imageFits image = false ∧ hostLoad image s = .fault .imageDoesNotFit) := by
  unfold hostLoad
  cases s.report <;> cases imageFits image <;> simp

/-- Settles O55, by the act that makes the step: all but a load answer. -/
theorem onlyABadLoadStops : Obligations.OnlyABadLoadStops := by
  intro s
  match hhost : s.host with
  | [] =>
    rw [step_free s hhost]
    exact .inl (tick_answers _ _)
  | .tick inp :: rest =>
    rw [step_tick s hhost]
    exact .inl (tick_answers _ _)
  | .timerTick :: rest => exact .inl ⟨_, step_timerTick s hhost⟩
  | .reset :: rest => exact .inl ⟨_, step_reset s hhost⟩
  | .load image :: rest =>
    rw [step_load s hhost]
    obtain ⟨-, -, h⟩ | ⟨late, h⟩ | ⟨large, h⟩ := hostLoad_cases image { s with host := rest }
    · exact .inl ⟨_, h⟩
    · exact .inr ⟨image, rest, rfl, .inl ⟨late, h⟩⟩
    · exact .inr ⟨image, rest, rfl, .inr ⟨not_le.1 (of_decide_eq_false large), h⟩⟩

/-! #### The tick -/

/-- Settles O5: in both clauses the tick is one cycle on the state with the inputs taken, and that cycle runs `i`. -/
theorem stepRunsTheDecodedInstruction : Obligations.StepRunsTheDecodedInstruction := by
  refine ⟨fun s inp rest i hhost hnext => step_of_nextInstr hhost hnext, fun s i hhost hnext => ?free⟩
  case free =>
    refine (step_free s hhost).trans ((tick_clear _ _ ?_).trans (cycle_of_nextInstr ?_))
    · exact hnext.1
    · exact nextInstr_congr hnext rfl rfl rfl

/-- A cycle on a word of no row is fatal with `pc` advanced (30_encoding.md R52, R58). -/
theorem cycle_of_unrecognised {s : State} (hpc : s.pc.toNat < 4095)
    (noRow : ∀ r ∈ opcodeTable, s.wordAt s.pc.toNat &&& r.mask ≠ r.bits) :
    cycle s = .next (s.advance.raise (.invalidInstruction (s.wordAt s.pc.toNat) s.pc)) := by
  have hdec := (decoderAgreesWithTheTable _).2.1 noRow
  simp only [cycle, fetch_inRange s hpc, runWord, hdec]

/-- Settles O6: the word has no row, so the decoder rejects it after the fetch has advanced. -/
theorem unrecognisedWordIsFatal : Obligations.UnrecognisedWordIsFatal := by
  intro s inp rest hhost hfault hpc noRow
  refine ⟨_, (step_tick_clear hhost hfault).trans (cycle_of_unrecognised hpc noRow), rfl, rfl, rfl, ?_⟩
  simp [KeepsAllBut, State.reg, State.byteAt]

/-- Settles O7: the first address above memory is 4096 when the first byte is still inside. -/
theorem fetchAboveMemoryIsFatal : Obligations.FetchAboveMemoryIsFatal := by
  intro s inp rest hhost hfault hpc
  refine ⟨_, step_of_fetch_outOfRange hhost hfault hpc, ?recorded, rfl, ?frame⟩
  case recorded =>
    have hfirst : s.pc.toNat < 4096 ↔ s.pc.toNat = 4095 := by omega
    simp only [raise_fault, recorded_address, hfirst]
  case frame => simp [KeepsAllBut, State.reg, State.byteAt]

/-- Settles O27: EXT writes the report alone, and the fetch of the next tick writes it again. -/
theorem haltReportsStop : Obligations.HaltReportsStop := by
  refine ⟨fun s => ?ext, fun s inp rest i _ hhost hnext => ?later⟩
  case ext => exact ⟨_, exec_ext s, rfl, rfl, by simp [KeepsAllBut]⟩
  case later =>
    have hnext' : NextInstr { s with report := none } i := nextInstr_congr hnext rfl rfl rfl
    rw [step_of_nextInstr hhost hnext, step_of_nextInstr (s := { s with report := none }) hhost hnext']
    rfl

/-- Settles O46: a tick looks at the latch before anything else. -/
theorem faultedMachineIgnoresTicks : Obligations.FaultedMachineIgnoresTicks :=
  fun s _ inp _ hfault hhost => (step_tick s hhost).trans (tick_faulted _ inp hfault)

/-! #### Reset -/

theorem initial_above_glyphs {a : Nat} (h : 80 ≤ a) : Memory.initial a = 0 :=
  List.getD_eq_default _ _ h

/-- Settles O1: memory lists nothing, so it reads as the glyph table and zero above, and the vectors hold zeros. -/
theorem resetLeavesTheStatedValues : Obligations.ResetLeavesTheStatedValues := by
  refine ⟨rfl, fun a _ => rfl, fun a h => initial_above_glyphs h, fun x => ?_, rfl, rfl, fun k => ?_, rfl, rfl, rfl⟩
  · simp [State.reset, State.reg]
  · simp [State.reset]

/-- Settles O57: a reset act is the reset state with what stays outside the machine. -/
theorem hostResetRestoresTheResetState : Obligations.HostResetRestoresTheResetState :=
  fun s _ hhost => ⟨_, step_reset s hhost, rfl, rfl, rfl, rfl⟩

end Sys2Proof.Machine
end

section
/-! SUPPORT. Arithmetic (41_load_arithmetic.md R92 to R101, 42_random.md R110): what two register writes keep, what the flags are as numbers, and the proofs about ADD, SUB, the shifts, the bitwise operations and RND. -/

namespace Sys2Proof.Machine

/-- Two register writes keep every other register and the rest of the state (10_state.md R10). -/
theorem keepsAllBut_setReg_setReg (s : State) {regs : List Reg} {x y : Reg} (hx : x ∈ regs) (hy : y ∈ regs)
    (a b : Byte) : KeepsAllBut { regs := regs } s ((s.setReg x a).setReg y b) := by
  refine ⟨fun z hz => ?_, by simp⟩
  rw [reg_setReg, if_neg (ne_of_mem_of_not_mem hy hz).symm, reg_setReg, if_neg (ne_of_mem_of_not_mem hx hz).symm]

/-! #### Addition and subtraction -/

theorem carryFlag_toNat (a b : Byte) : (carryFlag a b).toNat = (a.toNat + b.toNat) / 256 := by
  have := (a + b).isLt
  have := carryFlag_law a b
  omega

theorem notBorrowFlag_eq (p q : Byte) : notBorrowFlag p q = if q ≤ p then 1 else 0 := by
  simp only [notBorrowFlag, flagByte, decide_eq_true_eq, BitVec.le_def]

/-- The path that ADDV and ADD share: the result is written first and the carry last, so the carry is what stays in
register 15 (41_load_arithmetic.md R92, R93, R101). -/
theorem addition_law (s : State) (x : Reg) (a b : Byte) :
    let t := (s.setReg x (a + b)).setReg flagReg (carryFlag a b)
    KeepsAllBut { regs := [x, flagReg] } s t ∧
    (x ≠ flagReg → (t.reg x).toNat + 256 * (t.reg flagReg).toNat = a.toNat + b.toNat) ∧
    (t.reg flagReg).toNat = (a.toNat + b.toNat) / 256 := by
  refine ⟨keepsAllBut_setReg_setReg s (by simp) (by simp) _ _, fun hx => ?_, ?_⟩
  · simp only [reg_setReg_same, reg_setReg, if_neg hx]
    exact carryFlag_law a b
  · rw [reg_setReg_same, carryFlag_toNat]

/-- The path that SUB and SUBR share, the flag written last too (41_load_arithmetic.md R97, R99, R101). -/
theorem subtraction_law (s : State) (x : Reg) (p q : Byte) :
    let t := (s.setReg x (p - q)).setReg flagReg (notBorrowFlag p q)
    KeepsAllBut { regs := [x, flagReg] } s t ∧ t.reg flagReg = (if q ≤ p then 1 else 0) ∧
    (x ≠ flagReg → (t.reg x).toNat + q.toNat = p.toNat + 256 * (1 - (t.reg flagReg).toNat)) := by
  refine ⟨keepsAllBut_setReg_setReg s (by simp) (by simp) _ _, ?_, fun hx => ?_⟩
  · rw [reg_setReg_same, notBorrowFlag_eq]
  · simp only [reg_setReg_same, reg_setReg, if_neg hx]
    exact notBorrowFlag_law p q

/-- Settles O16, by the law of the shared addition, of the immediate or of the other register. -/
theorem additionsCarry : Obligations.AdditionsCarry :=
  ⟨fun x kk s => ⟨_, exec_addv s x kk, addition_law s x (s.reg x) kk⟩,
    fun x y s => ⟨_, exec_add s x y, addition_law s x (s.reg x) (s.reg y)⟩⟩

/-- Settles O17, by the law of the shared subtraction, in the two directions. -/
theorem subtractionsReportNotBorrow : Obligations.SubtractionsReportNotBorrow :=
  fun x y s => ⟨⟨_, exec_sub s x y, subtraction_law s x (s.reg x) (s.reg y)⟩,
    ⟨_, exec_subr s x y, subtraction_law s x (s.reg y) (s.reg x)⟩⟩

/-! #### Shifts -/

theorem lowBitFlag_le_one (a : Byte) : (lowBitFlag a).toNat ≤ 1 := by
  rw [lowBitFlag, flagByte_toNat]
  split <;> omega

theorem lowBitFlag_shifted_out (a : Byte) : lowBitFlag a >>> 1 = 0 := by
  unfold lowBitFlag flagByte
  split <;> rfl

theorem highBitFlag_shifted (a : Byte) : highBitFlag a <<< 1 = if 128 ≤ a.toNat then 2 else 0 := by
  revert a
  decide

/-- What a shift leaves in its own register and in register 15, which is written first (41_load_arithmetic.md R98, R100). -/
theorem reg_shift (s : State) (x : Reg) (flag : Byte) (shift : Byte → Byte) :
    let t := (s.setReg flagReg flag).setReg x (shift ((s.setReg flagReg flag).reg x))
    (x ≠ flagReg → t.reg x = shift (s.reg x) ∧ t.reg flagReg = flag) ∧ (x = flagReg → t.reg flagReg = shift flag) := by
  refine ⟨fun hx => ?_, ?_⟩
  · simp [hx, Ne.symm hx]
  · rintro rfl
    simp

/-- Settles O18: away from register 15 by the laws of the bit that moves out; on register 15 the flag itself is shifted. -/
theorem shiftsMoveOneBit : Obligations.ShiftsMoveOneBit := by
  intro x s
  refine ⟨⟨_, exec_rsh s x, keepsAllBut_setReg_setReg s (by simp) (by simp) _ _, fun hx => ?rsh, fun hx => ?rshFlag⟩,
    ⟨_, exec_lsh s x, keepsAllBut_setReg_setReg s (by simp) (by simp) _ _, fun hx => ?lsh, fun hx => ?lshFlag⟩⟩
  case rsh =>
    obtain ⟨hresult, hflag⟩ := (reg_shift s x (lowBitFlag (s.reg x)) (· >>> 1)).1 hx
    rw [hresult, hflag]
    exact ⟨lowBitFlag_law _, lowBitFlag_le_one _⟩
  case rshFlag => exact ((reg_shift s x _ (· >>> 1)).2 hx).trans (lowBitFlag_shifted_out _)
  case lsh =>
    obtain ⟨hresult, hflag⟩ := (reg_shift s x (highBitFlag (s.reg x)) (· <<< 1)).1 hx
    rw [hresult, hflag]
    exact highBitFlag_law _
  case lshFlag => exact ((reg_shift s x _ (· <<< 1)).2 hx).trans (highBitFlag_shifted _)

/-! #### Bitwise operations -/

/-- Settles O15: each is one register write of the library's bitwise operation, which acts bit by bit. -/
theorem bitwiseOperations : Obligations.BitwiseOperations := by
  refine fun x y s => ⟨⟨_, exec_or s x y, keepsAllBut_setReg s x _, fun k _ => ?or⟩,
    ⟨_, exec_and s x y, keepsAllBut_setReg s x _, fun k _ => ?and⟩,
    ⟨_, exec_xor s x y, keepsAllBut_setReg s x _, fun k _ => ?xor⟩⟩
  case or => rw [reg_setReg_same, BitVec.getLsbD_or]
  case and => rw [reg_setReg_same, BitVec.getLsbD_and]
  case xor => rw [reg_setReg_same, BitVec.getLsbD_xor]

/-- Settles O19: the masked byte and the complement of the mask have no bit in common. -/
theorem randomByteUnderMask : Obligations.RandomByteUnderMask := by
  intro x kk s
  refine ⟨_, exec_rnd s x kk, reg_setReg_same s x _, ?masked, keepsAllBut_setReg s x _⟩
  case masked =>
    rw [reg_setReg_same, BitVec.and_assoc, BitVec.and_not_self]
    exact BitVec.and_zero

end Sys2Proof.Machine
end

section
/-! SUPPORT. Jumps and calls (40_control_flow.md R70 to R78): the proofs about JMPR, a return after its call, and a run of calls. -/

namespace Sys2Proof.Machine

/-- Settles O22: the sum does not wrap at 16 bits. -/
theorem indexedJumpKeepsTheWholeSum : Obligations.IndexedJumpKeepsTheWholeSum :=
  fun nnn s => ⟨_, exec_jmpr s nnn, indexedTarget_toNat s nnn, keepsAllBut_setPc s _⟩

/-- Settles O25: the top entry is the one the call pushed, and neither instruction writes the entries below. -/
theorem returnComesBackAfterTheCall : Obligations.ReturnComesBackAfterTheCall := by
  intro nnn s t u room hcall hsp hstack
  obtain rfl : (s.push s.pc room).setPc (zext16 nnn) = t := by simpa [exec_cll_of_room s nnn room] using hcall
  have used : 0 < u.sp.val := by simp [hsp]
  have top : u.sp.val - 1 = s.sp.val := by simp [hsp]
  have entry (k : Fin 16) : u.stack[k] = if k.val = s.sp.val then s.pc else s.stack[k] :=
    (congrArg (·[k]) hstack).trans (push_stack_getElem s s.pc room k)
  refine ⟨_, exec_ret_of_used u used, ?pc, Fin.ext top, fun k hk => ?below⟩
  case pc =>
    have := entry ⟨s.sp.val, room⟩
    simpa [top] using this
  case below => exact (entry k).trans (if_neg (by omega))

/-- With room for all of them, calls one after another succeed, each using one entry and none touching the latch. -/
theorem callsFrom_of_room (targets : List Addr12) {s : State} (room : s.sp.val + targets.length ≤ 16) :
    ∃ t, callsFrom s targets = some t ∧ t.fault = s.fault ∧ t.sp.val = s.sp.val + targets.length := by
  induction targets generalizing s with
  | nil => exact ⟨s, rfl, rfl, rfl⟩
  | cons nnn rest ih =>
    rw [List.length_cons] at room
    have first : s.sp.val < 16 := by omega
    have hsp : ((s.push s.pc first).setPc (zext16 nnn)).sp.val = s.sp.val + 1 := rfl
    obtain ⟨t, hcalls, hfault, hlast⟩ := ih (s := (s.push s.pc first).setPc (zext16 nnn)) (by omega)
    refine ⟨t, ?_, hfault, by rw [List.length_cons]; omega⟩
    rw [callsFrom, exec_cll_of_room s nnn first]
    exact hcalls

/-- Settles O26, by induction on the calls; the stack is full after 16. -/
theorem sixteenCallsThenOverflow : Obligations.SixteenCallsThenOverflow := by
  intro s targets nnn empty hfault hlength
  obtain ⟨t, hcalls, hkept, hsp⟩ := callsFrom_of_room targets (s := s) (by omega)
  refine ⟨t, hcalls, hkept.trans hfault, by omega, fun full => ?overflow⟩
  case overflow => exact ⟨_, exec_cll_of_full t nnn (by omega), rfl, rfl, rfl⟩

end Sys2Proof.Machine
end

section
/-! SUPPORT. Arithmetic on the address register (43_memory_address.md R116, R117): the proofs about ADDI and STIS. -/

namespace Sys2Proof.Machine

/-- Five times a byte is at most 1275 and does not wrap (43_memory_address.md R117). -/
theorem glyphAddr_toNat (b : Byte) : (glyphAddr b).toNat = 5 * b.toNat := by
  have := b.isLt
  simp only [glyphAddr, Config.glyphSize, BitVec.toNat_ofNat]
  omega

/-- Settles O29: ADDI is one write to the address register, of a 16-bit sum. -/
theorem addiWrapsWithoutAFlag : Obligations.AddiWrapsWithoutAFlag := by
  intro x s
  refine ⟨_, exec_addi s x, ?sum, keepsAllBut_setI s _⟩
  case sum => rw [setI_i, BitVec.toNat_add, byteToAddr_toNat]

/-- Settles O30: STIS is one write to the address register. -/
theorem stisPointsAtTheGlyph : Obligations.StisPointsAtTheGlyph :=
  fun x s => ⟨_, exec_stis s x, glyphAddr_toNat (s.reg x), keepsAllBut_setI s _⟩

end Sys2Proof.Machine
end

section
/-! SUPPORT. Memory (20_memory.md R30 to R42, 43_memory_address.md R118 to R120): what a run of stores at `I` leaves, what an access out of range does, and the proofs about BCD, CTR and CFR. -/

namespace Sys2Proof.Machine

/-! #### A run of stores -/

/-- Settles O35, by the laws of one store. -/
theorem storedByteIsReadBack : Obligations.StoredByteIsReadBack := by
  intro m a v wf ha
  refine ⟨Memory.wf_write wf ha v, ?same, fun b hb => ?other⟩
  case same => rw [Memory.read_write wf, if_pos rfl]
  case other => rw [Memory.read_write wf, if_neg hb]

theorem keepsAllBut_storeBytes (s : State) (a : Nat) (bytes : List Byte) :
    KeepsAllBut { memory := true } s (s.storeBytes a bytes) := by
  simp [KeepsAllBut]

theorem byteAt_storeBytes_inside {s : State} (wf : s.mem.wf) {a k : Nat} {bytes : List Byte}
    (h : a + bytes.length ≤ Config.memSize) (hk : k < bytes.length) :
    (s.storeBytes a bytes).byteAt (a + k) = bytes.getD k 0 := by
  rw [byteAt_storeBytes s wf h, if_pos ⟨by omega, by omega⟩, Nat.add_sub_cancel_left]

theorem byteAt_storeBytes_outside {s : State} (wf : s.mem.wf) {a c : Nat} {bytes : List Byte}
    (h : a + bytes.length ≤ Config.memSize) (hc : c < a ∨ a + bytes.length ≤ c) :
    (s.storeBytes a bytes).byteAt c = s.byteAt c := by
  rw [byteAt_storeBytes s wf h, if_neg (by omega)]

/-- An access of `n` bytes at `I` that leaves memory is fatal before a byte of it moves (20_memory.md R32, R37). -/
theorem guarded_fatal {s : State} {n : Nat} (k : State) (hn : 0 < n) (h : 4096 < s.i.toNat + n) :
    ∃ t, s.guarded n k = .next t ∧
      t.fault = some (.memoryOutOfRange (if s.i.toNat < 4096 then 4096 else s.i) (s.pc - 2)) ∧
      t.report = some .fatal ∧ KeepsAllBut { latch := true } s t := by
  refine ⟨_, guarded_outOfRange s hn h, ?_, rfl, keepsAllBut_raise s _⟩
  rw [memSize_eq, recorded_address, raise_fault, State.instrAddr]

/-! #### BCD -/

theorem decimalDigits_law (b : Byte) :
    100 * ((decimalDigits b).getD 0 0).toNat + 10 * ((decimalDigits b).getD 1 0).toNat +
      ((decimalDigits b).getD 2 0).toNat = b.toNat ∧
    ((decimalDigits b).getD 1 0).toNat ≤ 9 ∧ ((decimalDigits b).getD 2 0).toNat ≤ 9 := by
  have := b.isLt
  simp only [decimalDigits, List.getD_cons_zero, List.getD_cons_succ, BitVec.toNat_ofNat]
  omega

/-- Settles O31, by the range of the three bytes. -/
theorem decimalDigitsStored : Obligations.DecimalDigitsStored := by
  intro x s wf
  refine ⟨fun inRange => ?stored, fun outOfRange => ?fatal⟩
  case stored =>
    have hend : s.i.toNat + (decimalDigits (s.reg x)).length ≤ Config.memSize := by
      rw [decimalDigits_length, memSize_eq]
      omega
    have digit (k : Nat) (hk : k < 3) := byteAt_storeBytes_inside (k := k) wf hend hk
    obtain ⟨hsum, htens, hones⟩ := decimalDigits_law (s.reg x)
    refine ⟨_, (exec_bcd s x).trans (guarded_inRange s (.inr hend)), ?_, ?_, ?_, fun a ha => ?_,
      keepsAllBut_storeBytes s _ _⟩
    · rw [digit 1 (by decide), digit 2 (by decide), ← hsum, ← digit 0 (by decide), Nat.add_zero]
    · rwa [digit 1 (by decide)]
    · rwa [digit 2 (by decide)]
    · exact byteAt_storeBytes_outside wf hend (by rw [decimalDigits_length]; omega)
  case fatal => exact guarded_fatal _ (by decide) (by omega)

/-! #### CTR and CFR -/

/-- In range CTR is one run of stores, and the bytes in it are the registers (43_memory_address.md R119). -/
theorem exec_ctr_inRange {s : State} {x : Reg} (inRange : s.i.toNat + x.val ≤ 4095) :
    exec (.ctr x) s = .next (s.storeBytes s.i.toNat (s.regsUpTo x)) :=
  (exec_ctr s x).trans (guarded_inRange s (.inr (by rw [memSize_eq]; omega)))

theorem byteAt_ctr {s : State} {x : Reg} (wf : s.mem.wf) (inRange : s.i.toNat + x.val ≤ 4095) {k : Reg} (hk : k ≤ x) :
    (s.storeBytes s.i.toNat (s.regsUpTo x)).byteAt (s.i.toNat + k.val) = s.reg k := by
  rw [Fin.le_def] at hk
  rw [byteAt_storeBytes_inside wf (by rw [regsUpTo_length, memSize_eq]; omega) (by rw [regsUpTo_length]; omega),
    regsUpTo_getD s x hk]

/-- Settles O32, by the range of the `x + 1` bytes. -/
theorem registersCopiedToMemory : Obligations.RegistersCopiedToMemory := by
  intro x s wf
  refine ⟨fun inRange => ?stored, fun outOfRange => ?fatal⟩
  case stored =>
    refine ⟨_, exec_ctr_inRange inRange, fun k hk => byteAt_ctr wf inRange hk, fun a ha => ?_,
      keepsAllBut_storeBytes s _ _⟩
    exact byteAt_storeBytes_outside wf (by rw [regsUpTo_length, memSize_eq]; omega) (by rw [regsUpTo_length]; omega)
  case fatal => exact guarded_fatal _ (by omega) (by omega)

/-- In range CFR is one block load (43_memory_address.md R120). -/
theorem exec_cfr_inRange {s : State} {x : Reg} (inRange : s.i.toNat + x.val ≤ 4095) :
    exec (.cfr x) s = .next (s.setRegsUpTo x fun k => s.byteAt (s.i.toNat + k)) :=
  (exec_cfr s x).trans (guarded_inRange s (.inr (by rw [memSize_eq]; omega)))

theorem keepsAllBut_setRegsUpTo (s : State) (x : Reg) (f : Nat → Byte) :
    KeepsAllBut { regs := List.finRange 16 } s (s.setRegsUpTo x f) := by
  simp [KeepsAllBut, List.mem_finRange]

/-- Settles O33, by the range of the `x + 1` bytes. -/
theorem memoryCopiedToRegisters : Obligations.MemoryCopiedToRegisters := by
  intro x s
  refine ⟨fun inRange => ?loaded, fun outOfRange => ?fatal⟩
  case loaded =>
    exact ⟨_, exec_cfr_inRange inRange, fun k => reg_setRegsUpTo s x _ k, keepsAllBut_setRegsUpTo s x _⟩
  case fatal => exact guarded_fatal _ (by omega) (by omega)

/-- Settles O34: CTR leaves `I`, so CFR reads the bytes that CTR stored. -/
theorem blockTransferRoundTrip : Obligations.BlockTransferRoundTrip := by
  intro x s t wf inRange h
  obtain rfl : s.storeBytes s.i.toNat (s.regsUpTo x) = t := by simpa [exec_ctr_inRange inRange] using h
  refine ⟨_, exec_cfr_inRange (s := s.storeBytes s.i.toNat (s.regsUpTo x)) inRange, setRegsUpTo_i _ x _,
    fun k => ?registers, fun k hk => ?bytes⟩
  case registers =>
    rw [reg_setRegsUpTo]
    split
    case isTrue hk => exact byteAt_ctr wf inRange hk
    case isFalse => exact reg_storeBytes s _ _ k
  case bytes => exact (byteAt_setRegsUpTo _ x _ _).trans (byteAt_ctr wf inRange hk)

/-- Settles O36: the two bytes are the word at `pc`, high byte first, and the fetch reads memory as CTR left it. -/
theorem storesAreSeenByTheFetch : Obligations.StoresAreSeenByTheFetch := by
  intro x s t u inp rest i wf hx inRange h hmem hpc hfault hhost hdec
  obtain rfl : s.storeBytes s.i.toNat (s.regsUpTo x) = t := by simpa [exec_ctr_inRange inRange] using h
  have hpos : 1 ≤ x.val := Nat.one_le_iff_ne_zero.2 fun h0 => hx (Fin.ext h0)
  have high : u.byteAt u.pc.toNat = s.reg 0 := by
    rw [hpc, byteAt_congr hmem]
    exact byteAt_ctr wf inRange (k := 0) (Fin.zero_le x)
  have low : u.byteAt (u.pc.toNat + 1) = s.reg 1 := by
    rw [hpc, byteAt_congr hmem]
    exact byteAt_ctr wf inRange (k := 1) hpos
  have hnext : NextInstr u i := ⟨hfault, by rw [hpc]; omega, by rwa [State.wordAt, wordOfBytes, high, low]⟩
  exact step_of_nextInstr hhost hnext

end Sys2Proof.Machine
end

section
/-! SUPPORT. The display and the keys (44_display_input.md R130 to R136): what a row sent is, what the key input answers, and the proofs about DRW, CLD, SEP, SENP and WTP. -/

namespace Sys2Proof.Machine

/-! #### The display -/

/-- Settles O38, by whether there is a display. -/
theorem clearSent : Obligations.ClearSent := by
  intro s
  refine ⟨_, exec_cld s, ?received, by simp [KeepsAllBut]⟩
  case received => cases hsink : s.input.sink <;> simp [hsink]

theorem spriteRows_length (s : State) (cx cy : Byte) (d : Rows) : (s.spriteRows cx cy d).length = d.val := by
  simp [State.spriteRows]

/-- The vertical coordinate of a row is the whole sum: at most 255 + 14 on 9 bits (44_display_input.md R131). -/
theorem rowCoordinate_toNat (cy : Byte) {r : Nat} (hr : r < 16) :
    (cy.zeroExtend 9 + BitVec.ofNat 9 r).toNat = cy.toNat + r := by
  have := cy.isLt
  simp only [BitVec.toNat_add, BitVec.truncate_eq_setWidth, BitVec.toNat_setWidth, BitVec.toNat_ofNat]
  omega

theorem spriteRows_getElem? (s : State) (cx cy : Byte) {d : Rows} {r : Nat} (hr : r < d.val) :
    (s.spriteRows cx cy d)[r]? =
      some (.drawRow cx (cy.zeroExtend 9 + BitVec.ofNat 9 r) (s.byteAt (s.i.toNat + r))) := by
  simp [State.spriteRows, State.effAddr, hr]

theorem collisionOf_of_sink {s : State} {answers : BitVec 15} (hsink : s.input.sink = some answers) (d : Rows) :
    s.collisionOf d = true ↔ ∃ r < d.val, answers.getLsbD r = true := by
  simp [State.collisionOf, State.collision, hsink]

theorem collisionOf_of_no_sink {s : State} (hsink : s.input.sink = none) (d : Rows) : s.collisionOf d = false := by
  simp [State.collisionOf, State.collision, hsink]

/-- What DRW leaves once its range is checked: the rows sent and the answers in register 15 (44_display_input.md R131). -/
def State.drawn (s : State) (x y : Reg) (d : Rows) : State :=
  (s.send (s.spriteRows (s.reg x) (s.reg y) d)).setReg flagReg (flagByte (s.collisionOf d))

theorem exec_drw_inRange {s : State} {x y : Reg} {d : Rows} (inRange : d.val = 0 ∨ s.i.toNat + d.val ≤ 4096) :
    exec (.drw x y d) s = .next (s.drawn x y d) :=
  (exec_drw s x y d).trans (guarded_inRange s inRange)

theorem drawn_display (s : State) (x y : Reg) (d : Rows) :
    (s.drawn x y d).display = s.display ++ if s.input.sink.isSome then s.spriteRows (s.reg x) (s.reg y) d else [] :=
  rfl

theorem drawn_flag (s : State) (x y : Reg) (d : Rows) :
    (s.drawn x y d).reg flagReg = if s.collisionOf d = true then 1 else 0 :=
  reg_setReg_same _ _ _

theorem keepsAllBut_drawn (s : State) (x y : Reg) (d : Rows) :
    KeepsAllBut { regs := [flagReg], display := true } s (s.drawn x y d) := by
  simp +contextual [KeepsAllBut, State.drawn]

/-- Settles O37, by the range of the `d` bytes and then by whether there is a display. -/
theorem spriteRowsSent : Obligations.SpriteRowsSent := by
  intro x y d s
  refine ⟨fun inRange => ⟨_, exec_drw_inRange inRange, fun answers hsink => ?sent, fun hsink => ?absent,
    keepsAllBut_drawn s x y d⟩, fun hd outOfRange => ?fatal⟩
  case sent =>
    refine ⟨s.spriteRows (s.reg x) (s.reg y) d, by simp [drawn_display, hsink], spriteRows_length s _ _ d,
      fun r hr => ?row, ?flag⟩
    case row => exact ⟨_, rowCoordinate_toNat _ (by omega), spriteRows_getElem? s _ _ hr⟩
    case flag => simp only [drawn_flag, collisionOf_of_sink hsink]
  case absent => simp [drawn_display, drawn_flag, hsink, collisionOf_of_no_sink hsink]
  case fatal => exact guarded_fatal _ (by omega) outOfRange

/-! #### The keys -/

theorem keyDown_of_no_keys {s : State} (hkeys : s.input.keys = none) (k : Nat) : s.keyDown k = false := by
  simp only [State.keyDown, hkeys]

/-- Settles O40, by the two branches of the shared key test, as for a supplied key state (`keySkips`). -/
theorem keysAreUpWhenAbsent : Obligations.KeysAreUpWhenAbsent := by
  intro x s hkeys
  have hup := keyDown_of_no_keys hkeys (s.reg x).toNat
  refine ⟨fun hindex => ⟨?sep, ?senp⟩, fun hbad => ?badIndex⟩
  case sep => exact ⟨_, skipOnKey_of_index s x true hindex, by simp [hup], by simp [KeepsAllBut, hup]⟩
  case senp => exact ⟨_, skipOnKey_of_index s x false hindex, by simp [hup], keepsAllBut_skipIf s _⟩
  case badIndex =>
    simp only [List.forall_mem_cons, exec_sep, exec_senp]
    exact ⟨skipOnKey_badIndex_fatal true hbad, skipOnKey_badIndex_fatal false hbad, List.forall_mem_nil _⟩

/-- With every bit of a supplied key state clear, or with no key state, no key is down (44_display_input.md R133). -/
theorem lowestKey_of_no_key {s : State} (h : ∀ keys, s.input.keys = some keys → keys = 0) : s.lowestKey = none := by
  refine (lowestKey_eq_none s).2 fun k _ => ?_
  cases hkeys : s.input.keys with
  | none => exact keyDown_of_no_keys hkeys k
  | some keys =>
    rw [keyDown_of_keys hkeys, h keys hkeys]
    exact BitVec.getLsbD_zero

/-- Settles O41, by whether a key is down. -/
theorem keyWaitCapturesTheLowest : Obligations.KeyWaitCapturesTheLowest := by
  intro x s
  refine ⟨?captured, fun h => ?waits⟩
  case captured =>
    rintro k hk ⟨keys, hkeys, hdown, hlower⟩
    have hlowest : s.lowestKey = some k := (lowestKey_eq_some s).2
      ⟨hk, (keyDown_of_keys hkeys k).trans hdown, fun j hj => (keyDown_of_keys hkeys j).trans (hlower j hj)⟩
    refine ⟨_, exec_wtp_of_key s x hlowest, ?_, keepsAllBut_setReg s x _⟩
    rw [reg_setReg_same, BitVec.toNat_ofNat]
    omega
  case waits => exact ⟨_, exec_wtp_of_none s x (lowestKey_of_no_key h), rfl, keepsAllBut_setPc s _⟩

/-- Settles O42: the fetch adds 2 to `pc` and WTP takes it back, so the same word is next. -/
theorem keyWaitRepeats : Obligations.KeyWaitRepeats := by
  intro x s inp rest hhost hnext hup
  have hwait := exec_wtp_of_none ({ s with host := rest }.fetched inp) x (lowestKey_of_no_key hup)
  have hpc : s.pc + 2 - 2 = s.pc := by bv_omega
  refine ⟨_, (step_of_nextInstr hhost hnext).trans hwait, rfl, hnext.1, nextInstr_congr hnext rfl hpc rfl, rfl, rfl,
    ?_⟩
  simp [KeepsAllBut, State.reg, State.byteAt, State.fetched, State.instrAddr]

end Sys2Proof.Machine
end

section
/-! SUPPORT. The timers (45_timers.md R145 to R148): the three moves and runs of TimerTick steps. -/

namespace Sys2Proof.Machine

/-- Settles O43: each move is one write, to a register or to a timer. -/
theorem timerMoves : Obligations.TimerMoves := by
  refine fun x s => ⟨⟨_, exec_strd s x, reg_setReg_same s x _, keepsAllBut_setReg s x _⟩,
    ⟨_, exec_stdr s x, rfl, rfl, ?stdr⟩, ⟨_, exec_strs s x, rfl, rfl, ?strs⟩⟩
  case stdr => simp [KeepsAllBut]
  case strs => simp [KeepsAllBut]

theorem keepsAllBut_trans {c : Changes} {s t u : State} (hst : KeepsAllBut c s t) (htu : KeepsAllBut c t u) :
    KeepsAllBut c s u := by
  obtain ⟨regs, i, pc, stack, timers, memory, latch, display, world⟩ := hst
  obtain ⟨regs', i', pc', stack', timers', memory', latch', display', world'⟩ := htu
  refine ⟨fun z hz => (regs' z hz).trans (regs z hz), fun h => (i' h).trans (i h), fun h => (pc' h).trans (pc h),
    fun h => ?_, fun h => ?_, fun h a => (memory' h a).trans (memory h a), fun h => ?_,
    fun h => (display' h).trans (display h), fun h => ?_⟩
  · exact ⟨(stack' h).1.trans (stack h).1, (stack' h).2.trans (stack h).2⟩
  · exact ⟨(timers' h).1.trans (timers h).1, (timers' h).2.trans (timers h).2⟩
  · exact ⟨(latch' h).1.trans (latch h).1, (latch' h).2.trans (latch h).2⟩
  · simp [world h, world' h]

/-- One act of TimerTick takes 1 from each timer, stopping at 0 (45_timers.md R148). -/
theorem step_timerTick_effect {s : State} {rest : List HostAct} (hhost : s.host = .timerTick :: rest) :
    ∃ u, step s = .next u ∧ u.dt.toNat = s.dt.toNat - 1 ∧ u.st.toNat = s.st.toNat - 1 ∧ u.host = rest ∧
      u.input = s.input ∧ KeepsAllBut { timers := true, world := true } s u :=
  ⟨_, step_timerTick s hhost, decrement_toNat s.dt, decrement_toNat s.st, rfl, rfl,
    by simp [KeepsAllBut, State.reg, State.byteAt]⟩

/-- Settles O44, by induction on the number of acts. -/
theorem timerTicksDecrement : Obligations.TimerTicksDecrement := by
  intro n rest s hhost
  induction n generalizing s with
  | zero => exact ⟨s, rfl, rfl, rfl, hhost, rfl, keepsAllBut_refl _ s⟩
  | succ n ih =>
    obtain ⟨u, hstep, hdt, hst, hu, hinput, hkeeps⟩ := step_timerTick_effect hhost
    obtain ⟨t, hrun, hdt', hst', hrest, hinput', hkeeps'⟩ := ih u hu
    refine ⟨t, ?run, by omega, by omega, hrest, hinput'.trans hinput, keepsAllBut_trans hkeeps hkeeps'⟩
    case run => simpa only [stepMany, hstep] using hrun

end Sys2Proof.Machine
end

section
/-! SUPPORT. Rules over all instructions: fatal conditions are precise and the table's (60_exceptions.md R155 to R164), which instructions write what (10_state.md R11 to R19), and which read the timers and the inputs. -/

namespace Sys2Proof.Machine

/-! #### Fatal conditions -/

/-- Settles O48: a fatal instruction is one `raise`. -/
theorem fatalsArePrecise : Obligations.FatalsArePrecise := by
  intro i s t hclear h hfatal
  obtain ⟨f, rfl⟩ := exec_eq_raise_of_fault hclear h hfatal
  exact ⟨rfl, keepsAllBut_raise s f⟩

/-- Settles O49: every instruction answers, and the latch it leaves is the table's. -/
theorem fatalExactlyInTheTable : Obligations.FatalExactlyInTheTable := by
  intro i s hclear
  obtain ⟨t, h⟩ := everyInstructionAnswers i s
  exact ⟨t, h, exec_fault_eq_raises hclear h⟩

theorem exec_keeps_latch_set {i : Instr} {s t : State} (hset : s.fault ≠ none) (h : exec i s = .next t) :
    t.fault ≠ none := by
  obtain ⟨f, -, rfl⟩ | ⟨-, hkept⟩ := exec_latchFollowsTable h
  · exact Option.some_ne_none f
  · rwa [hkept]

theorem eq_of_tick_faulted {inp : TickInput} {s t : State} {f : Fatal} (h : tick inp s = .next t)
    (hfault : s.fault = some f) : t = s := by
  cases (tick_faulted s inp hfault).symm.trans h
  rfl

/-- A step of a faulted machine that meets the invariant is a reset, or leaves all but the timers, the inputs and the
schedule; a load is out, since the last tick was fatal (60_exceptions.md R161, R162). -/
theorem step_of_faulted {s t : State} {f : Fatal} (inv : MachineInv s) (hfault : s.fault = some f)
    (h : step s = .next t) :
    (s.host.head? = some .reset ∧ t.fault = none) ∨
    (s.host.head? ≠ some .reset ∧ t.fault = some f ∧ KeepsAllBut { timers := true, world := true } s t) := by
  obtain ⟨hhost, h⟩ | ⟨inp, rest, hhost, h⟩ | ⟨rest, hhost, rfl⟩ | ⟨rest, hhost, rfl⟩ |
    ⟨image, rest, -, early, -, -⟩ := step_cases s h
  case inr.inr.inr.inl => exact .inl ⟨by simp [hhost], rfl⟩
  case inr.inr.inr.inr =>
    obtain ⟨-, -, -, hlatch⟩ := inv
    have hreport := hlatch.2 (by simp [hfault])
    rw [early] at hreport
    cases hreport
  case inl =>
    obtain rfl := eq_of_tick_faulted h hfault
    exact .inr ⟨by simp [hhost], hfault, by simp [KeepsAllBut, State.reg, State.byteAt]⟩
  case inr.inl =>
    obtain rfl := eq_of_tick_faulted h hfault
    exact .inr ⟨by simp [hhost], hfault, by simp [KeepsAllBut, State.reg, State.byteAt]⟩
  case inr.inr.inl => exact .inr ⟨by simp [hhost], hfault, by simp [KeepsAllBut, State.reg, State.byteAt]⟩

/-- Settles O47: an instruction can only set the latch, and a faulted machine leaves it alone unless it is reset. -/
theorem onlyResetClearsTheLatch : Obligations.OnlyResetClearsTheLatch := by
  refine ⟨fun i s t hset h => exec_keeps_latch_set hset h, fun s t f inv hfault h => ?_⟩
  obtain ⟨hreset, hclear⟩ | ⟨hother, hkept⟩ := step_of_faulted inv hfault h
  · exact ⟨fun _ => hclear, fun hne => absurd hreset hne⟩
  · exact ⟨fun heq => absurd heq hother, fun _ => hkept⟩

/-! #### Writers -/

/-- Register 15 is as it was, or the instruction may write it as its destination or as its flag (10_state.md R11, R12). -/
def FlagKeptOrWritten (i : Instr) (s t : State) : Prop :=
  t.reg flagReg = s.reg flagReg ∨ destination i = some flagReg ∨ i = .cfr flagReg ∨
  i.mnemonic ∈ [.addv, .add, .sub, .subr, .rsh, .lsh, .drw]

theorem flagKeptOrWritten_setReg {i : Instr} {s : State} {x : Reg} (hdest : destination i = some x) (b : Byte) :
    FlagKeptOrWritten i s (s.setReg x b) := by
  by_cases hx : flagReg = x
  · exact .inr (.inl (hx ▸ hdest))
  · exact .inl ((reg_setReg s x b flagReg).trans (if_neg hx))

theorem exec_flag {i : Instr} {s t : State} (h : exec i s = .next t) : FlagKeptOrWritten i s t := by
  refine exec_elim (P := FlagKeptOrWritten i s) h (fun _ _ => .inl rfl) (fun _ _ => .inl rfl) (fun _ _ _ => .inl rfl)
    (fun _ _ _ => .inl rfl) (fun _ _ _ => .inl rfl) (fun x hi _ => ?cfr)
    (fun _ _ _ hi _ => .inr (.inr (.inr (by simp [hi, Instr.mnemonic])))) (fun _ _ _ => .inl rfl)
    (fun _ _ _ => .inl rfl) (fun x _ hi _ => flagKeptOrWritten_setReg (by rw [hi]; rfl) _) (fun _ _ _ => .inl rfl)
    (fun plain => ?plain)
  case cfr =>
    by_cases hx : flagReg ≤ x
    · exact .inr (.inr (.inl (by rw [hi, le_antisymm hx (Fin.le_last x)])))
    · exact .inl ((reg_setRegsUpTo s x _ flagReg).trans (if_neg hx))
  case plain =>
    cases i
    case ret | cll | bcd | ctr | cfr | drw | sep | senp | wtp => simp [Instr.mnemonic] at plain
    all_goals injection h with h; subst h
    case addv | add | sub | subr | rsh | lsh => exact .inr (.inr (.inr (by simp [Instr.mnemonic])))
    case stv | str | or | and | xor | rnd | strd => exact flagKeptOrWritten_setReg rfl _
    all_goals exact .inl rfl

/-- Settles O51, by every way an instruction can end. -/
theorem flagRegisterWriters : Obligations.FlagRegisterWriters :=
  fun _ _ _ h hchanged => (exec_flag h).resolve_left hchanged

/-- The address register, the timers, the display and the world are as they were, or the instruction may write them
(10_state.md R13, R19, 44_display_input.md R130). -/
def PortsKeptOrWritten (i : Instr) (s t : State) : Prop :=
  (t.i = s.i ∨ i.mnemonic ∈ [.sti, .addi, .stis]) ∧ (t.dt = s.dt ∨ i.mnemonic = .stdr) ∧
  (t.st = s.st ∨ i.mnemonic = .strs) ∧ (t.display = s.display ∨ i.mnemonic ∈ [.cld, .drw]) ∧
  t.input = s.input ∧ t.host = s.host ∧ t.freeIx = s.freeIx

theorem portsKept (i : Instr) {s t : State} (hi : t.i = s.i) (hdt : t.dt = s.dt) (hst : t.st = s.st)
    (hdisplay : t.display = s.display) (hinput : t.input = s.input) (hhost : t.host = s.host)
    (hfree : t.freeIx = s.freeIx) : PortsKeptOrWritten i s t :=
  ⟨.inl hi, .inl hdt, .inl hst, .inl hdisplay, hinput, hhost, hfree⟩

theorem exec_ports {i : Instr} {s t : State} (h : exec i s = .next t) : PortsKeptOrWritten i s t := by
  refine exec_elim (P := PortsKeptOrWritten i s) h (fun _ _ => portsKept i rfl rfl rfl rfl rfl rfl rfl)
    (fun _ _ => portsKept i rfl rfl rfl rfl rfl rfl rfl) (fun _ _ _ => portsKept i rfl rfl rfl rfl rfl rfl rfl)
    (fun _ _ _ => portsKept i rfl rfl rfl rfl rfl rfl rfl) (fun _ _ _ => portsKept i rfl rfl rfl rfl rfl rfl rfl)
    ?cfr (fun _ _ _ hi _ => ⟨.inl rfl, .inl rfl, .inl rfl, .inr (by simp [hi, Instr.mnemonic]), rfl, rfl, rfl⟩)
    (fun _ _ _ => portsKept i rfl rfl rfl rfl rfl rfl rfl) (fun _ _ _ => portsKept i rfl rfl rfl rfl rfl rfl rfl)
    (fun _ _ _ _ => portsKept i rfl rfl rfl rfl rfl rfl rfl) (fun _ _ _ => portsKept i rfl rfl rfl rfl rfl rfl rfl)
    (fun plain => ?plain)
  case cfr =>
    intros
    simp [PortsKeptOrWritten]
  case plain =>
    cases i
    case ret | cll | bcd | ctr | cfr | drw | sep | senp | wtp => simp [Instr.mnemonic] at plain
    all_goals injection h with h; subst h
    case sti | addi | stis | stdr | strs | cld => simp [PortsKeptOrWritten, Instr.mnemonic]
    all_goals exact portsKept _ rfl rfl rfl rfl rfl rfl rfl

theorem stackAfter_writer {i : Instr} {s : State} {sp : Fin 17} {stack : Vector Addr 16}
    (h : StackAfter i s sp stack) (hchanged : sp ≠ s.sp ∨ stack ≠ s.stack) : i.mnemonic ∈ [.cll, .ret] := by
  cases h with
  | kept => simp at hchanged
  | popped _ ret => simp [ret, Instr.mnemonic]
  | pushed _ _ call => simp [call, Instr.mnemonic]

theorem memAfter_writer {i : Instr} {s : State} {m : Memory} (h : MemAfter i s m) (hchanged : m ≠ s.mem) :
    i.mnemonic ∈ [.bcd, .ctr] := by
  cases h with
  | kept => exact absurd rfl hchanged
  | stored _ store _ => exact store

/-- Settles O52, from what an instruction leaves in each part of the state. -/
theorem specialStateWriters : Obligations.SpecialStateWriters := by
  intro i s t h
  obtain ⟨hi, hdt, hst, hdisplay, hworld⟩ := exec_ports h
  exact ⟨hi.resolve_left, stackAfter_writer (exec_stackAfter h), hdt.resolve_left, hst.resolve_left,
    memAfter_writer (exec_memAfter h), hdisplay.resolve_left, hworld⟩

/-! #### Readers of the timers and the inputs -/

/-- A state with other timers and other inputs of the tick, and nothing else different. -/
def State.withPorts (s : State) (timer : Byte → Byte) (inputs : TickInput → TickInput) : State :=
  { s with dt := timer s.dt, st := timer s.st, input := inputs s.input }

theorem withPorts_setRegsUpTo (s : State) (x : Reg) (f : Nat → Byte) (timer : Byte → Byte)
    (inputs : TickInput → TickInput) :
    (s.setRegsUpTo x f).withPorts timer inputs = (s.withPorts timer inputs).setRegsUpTo x f := by
  simp only [State.withPorts, State.setRegsUpTo]

/-- The fatal conditions of the table depend on `pc`, `I`, the stack pointer and the registers alone (60_exceptions.md R155). -/
theorem raises_withPorts (i : Instr) (s : State) (timer : Byte → Byte) (inputs : TickInput → TickInput) :
    raises i (s.withPorts timer inputs) = raises i s := by
  cases i <;> rfl

/-- Where the table has a row for the instruction, running it takes that condition (60_exceptions.md R164). -/
theorem exec_of_raises {i : Instr} {s : State} {f : Fatal} (hrow : raises i s = some f) :
    exec i s = .next (s.raise f) := by
  obtain ⟨t, h⟩ := everyInstructionAnswers i s
  obtain ⟨g, hg, rfl⟩ | ⟨hnone, -⟩ := exec_latchFollowsTable h
  · rwa [Option.some.inj (hg.symm.trans hrow)] at h
  · cases hnone.symm.trans hrow

/-- An instruction that reads and writes no timer may run before or after the timers change, and one that reads no
input of the tick may run with other inputs (45_timers.md R148, 10_state.md R23). -/
theorem exec_withPorts {i : Instr} {s t : State} {timer : Byte → Byte} {inputs : TickInput → TickInput}
    (noTimer : timer = id ∨ i.mnemonic ∉ [.strd, .stdr, .strs])
    (noInput : inputs = id ∨ i.mnemonic ∉ [.rnd, .drw, .cld, .sep, .senp, .wtp]) (h : exec i s = .next t) :
    exec i (s.withPorts timer inputs) = .next (t.withPorts timer inputs) := by
  refine exec_elim (P := fun t => exec i (s.withPorts timer inputs) = .next (t.withPorts timer inputs)) h
    (fun f hf => exec_of_raises ((raises_withPorts i s timer inputs).trans hf)) ?ret ?cll ?bcd ?ctr ?cfr ?drw ?sep
    ?senp ?captured ?waits ?plain
  case ret =>
    rintro used rfl
    exact exec_ret_of_used (s.withPorts timer inputs) used
  case cll =>
    rintro nnn room rfl
    exact exec_cll_of_room (s.withPorts timer inputs) nnn room
  case bcd | ctr =>
    rintro x rfl inRange
    exact guarded_inRange (s.withPorts timer inputs) (.inr inRange)
  case cfr =>
    rintro x rfl inRange
    rw [withPorts_setRegsUpTo]
    exact guarded_inRange (s.withPorts timer inputs) (.inr inRange)
  case drw =>
    rintro x y d rfl inRange
    obtain rfl := noInput.resolve_right (by simp [Instr.mnemonic])
    exact guarded_inRange (s.withPorts timer id) inRange
  case sep =>
    rintro x rfl index
    obtain rfl := noInput.resolve_right (by simp [Instr.mnemonic])
    exact skipOnKey_of_index (s.withPorts timer id) x true index
  case senp =>
    rintro x rfl index
    obtain rfl := noInput.resolve_right (by simp [Instr.mnemonic])
    exact skipOnKey_of_index (s.withPorts timer id) x false index
  case captured =>
    rintro x k rfl hlowest
    obtain rfl := noInput.resolve_right (by simp [Instr.mnemonic])
    exact exec_wtp_of_key (s.withPorts timer id) x hlowest
  case waits =>
    rintro x rfl hlowest
    obtain rfl := noInput.resolve_right (by simp [Instr.mnemonic])
    exact exec_wtp_of_none (s.withPorts timer id) x hlowest
  case plain =>
    intro plain
    cases i
    case ret | cll | bcd | ctr | cfr | drw | sep | senp | wtp => simp [Instr.mnemonic] at plain
    all_goals injection h with h; subst h
    case strd | stdr | strs =>
      obtain rfl := noTimer.resolve_right (by simp [Instr.mnemonic])
      rfl
    case rnd | cld =>
      obtain rfl := noInput.resolve_right (by simp [Instr.mnemonic])
      rfl
    all_goals rfl

/-- Settles O45: a TimerTick step is a change of the timers alone. -/
theorem timerTickCommutes : Obligations.TimerTickCommutes := by
  intro i s t other h
  refine exec_withPorts (timer := decrement) (inputs := id) (.inr ?_) (.inl rfl) h
  cases i
  case strd x | stdr x | strs x => simp at other
  all_goals simp [Instr.mnemonic]

/-- Settles O53: other inputs of the tick are a change of the ports alone. -/
theorem inputsMatterOnlyToSix : Obligations.InputsMatterOnlyToSix :=
  fun _ _ _ inp other h => exec_withPorts (timer := id) (inputs := fun _ => inp) (.inl rfl) (.inr other) h

end Sys2Proof.Machine
end

section
/-! SUPPORT. The loader (70_reset_and_hazards.md R184): where the bytes of an image lie, and the proof that a load places it and nothing else. -/

namespace Sys2Proof.Machine

/-- Word `k` of an image is two bytes, the high one first (20_memory.md R34). -/
theorem bytesOfWords_getD {image : List Word} {k : Nat} {w : Word} (h : image[k]? = some w) :
    (bytesOfWords image).getD (2 * k) 0 = highByte w ∧ (bytesOfWords image).getD (2 * k + 1) 0 = lowByte w := by
  induction image generalizing k with
  | nil => cases h
  | cons v image ih =>
    cases k with
    | zero =>
      cases h
      exact ⟨rfl, rfl⟩
    | succ k => exact ih h

/-- A word of a loaded image is read back at its even offset (70_reset_and_hazards.md R184). -/
theorem wordAt_loadImage {s : State} (wf : s.mem.wf) {image : List Word}
    (fits : Config.programStart.toNat + 2 * image.length ≤ Config.memSize) {k : Nat} {w : Word}
    (h : image[k]? = some w) : (s.loadImage image).wordAt (Config.programStart.toNat + 2 * k) = w := by
  obtain ⟨hk, -⟩ := List.getElem?_eq_some_iff.1 h
  obtain ⟨high, low⟩ := bytesOfWords_getD h
  rw [← bytesOfWords_length] at fits
  rw [State.wordAt, State.loadImage, Nat.add_assoc,
    byteAt_storeBytes_inside wf fits (by rw [bytesOfWords_length]; omega),
    byteAt_storeBytes_inside wf fits (by rw [bytesOfWords_length]; omega), high, low, wordOfBytes_bytes]

/-- Settles O56: the load is one run of stores of the image's bytes. -/
theorem loaderPlacesTheImage : Obligations.LoaderPlacesTheImage := by
  intro s image rest wf early hhost fits
  have hload : hostLoad image { s with host := rest } = .next ({ s with host := rest }.loadImage image) := by
    simp only [hostLoad, early, imageFits, memSize_eq, fits, decide_true, if_true]
  refine ⟨_, (step_load s hhost).trans hload, fun k w h => ?placed, fun a ha => ?outside, rfl, ?frame⟩
  case placed => exact wordAt_loadImage (s := { s with host := rest }) wf fits h
  case outside =>
    rw [← bytesOfWords_length] at fits ha
    exact byteAt_storeBytes_outside (s := { s with host := rest }) wf fits ha
  case frame => simp [KeepsAllBut, State.loadImage, State.reg]

end Sys2Proof.Machine
end

section
/-! SUPPORT. The assembler reads back what `sourceLine` writes (30_encoding.md R62 to R64), and what a run of instruction lines, a reference and a definition emit (R65, R66). -/

namespace Sys2Proof.Machine

/-! #### Reading one line -/

theorem noSpace_of_all {t : Chars} (h : t.all (!·.isWhitespace) = true) : NoSpace t := by
  simpa [List.all_eq_true] using h

/-- The spelling of a mnemonic is one token that no comment or directive begins with (30_encoding.md R62). -/
theorem mnemonicName_isToken (m : Mnemonic) :
    NoSpace (mnemonicName m).toList ∧ (mnemonicName m).toList ≠ [] ∧
    (mnemonicName m).toList.take 2 ≠ ['/', '/'] ∧ (mnemonicName m).toList.head? ≠ some '#' := by
  refine ⟨noSpace_of_all ?_, ?_⟩ <;> cases m <;> decide

theorem mnemonicOf_mnemonicName (m : Mnemonic) : mnemonicOf (mnemonicName m).toList = some m := by
  cases m <;> decide

/-- The operands of an instruction as tokens, each as many digits as its field takes (30_encoding.md R63, R64). -/
def operandTokens (values bounds : List Nat) : List Chars :=
  (values.zip bounds).map fun (v, b) => hexChars (digitsFor b) v

theorem sourceLine_eq (i : Instr) :
    sourceLine i = (mnemonicName i.mnemonic).toList ++
      (operandTokens i.operands i.mnemonic.shape.bounds).flatMap fun o => ' ' :: o := by
  rw [sourceLine, operandTokens, List.flatMap_map]

theorem digitsFor_pos (b : Nat) : 0 < digitsFor b := by
  unfold digitsFor
  split_ifs <;> decide

theorem hexChars_ne_nil {k : Nat} (hk : 0 < k) (n : Nat) : hexChars k n ≠ [] := by
  obtain ⟨k, rfl⟩ := Nat.exists_eq_add_of_lt hk
  simp [hexChars]

theorem operandTokens_areTokens (values bounds : List Nat) :
    ∀ o ∈ operandTokens values bounds, NoSpace o ∧ o ≠ [] := by
  intro o ho
  obtain ⟨⟨v, b⟩, -, rfl⟩ := List.mem_map.1 ho
  exact ⟨noSpace_hexChars _ v, hexChars_ne_nil (digitsFor_pos b) v⟩

theorem hexOf_operand {v b : Nat} (h : v < 16 ^ digitsFor b) : hexOf (hexChars (digitsFor b) v) = some v := by
  obtain ⟨k, hk⟩ := Nat.exists_eq_add_of_lt (digitsFor_pos b)
  rw [hk, Nat.zero_add] at h ⊢
  exact hexOf_hexChars k v h

theorem mapM_hexOf_operandTokens {values bounds : List Nat} (hlength : values.length = bounds.length)
    (hfit : ∀ p ∈ values.zip bounds, p.1 < 16 ^ digitsFor p.2) :
    (operandTokens values bounds).mapM hexOf = some values := by
  induction values generalizing bounds with
  | nil => rfl
  | cons v values ih =>
    cases bounds with
    | nil => cases hlength
    | cons b bounds =>
      rw [List.zip_cons_cons, List.forall_mem_cons] at hfit
      have hrest := ih (Nat.succ.inj hlength) hfit.2
      rw [operandTokens] at hrest ⊢
      simp [hexOf_operand hfit.1, hrest]

/-- Every field bound is what its digits can write (30_encoding.md R51, R64). -/
theorem bound_le_digits (m : Mnemonic) : ∀ b ∈ m.shape.bounds, b ≤ 16 ^ digitsFor b := by
  cases m <;> decide

theorem operands_fit (i : Instr) :
    i.operands.length = i.mnemonic.shape.bounds.length ∧
    ∀ p ∈ i.operands.zip i.mnemonic.shape.bounds, p.1 < 16 ^ digitsFor p.2 := by
  have wf := raw_wf i
  simp only [RawInstr.wf, Instr.raw, Bool.and_eq_true, beq_iff_eq, List.all_eq_true, decide_eq_true_eq] at wf
  obtain ⟨hlength, hbound⟩ := wf
  exact ⟨hlength, fun p hp => (hbound p hp).trans_le (bound_le_digits _ _ (List.of_mem_zip hp).2)⟩

theorem operandTokens_length {values bounds : List Nat} (hlength : values.length = bounds.length) :
    (operandTokens values bounds).length = bounds.length := by
  simp [operandTokens, hlength]

/-- The operand tokens of an instruction, after its mnemonic, read as the instruction (30_encoding.md R63, R64). -/
theorem instructionLine_operandTokens (i : Instr) :
    instructionLine i.mnemonic (operandTokens i.operands i.mnemonic.shape.bounds) = .ok (.instruction i) := by
  obtain ⟨hlength, hfit⟩ := operands_fit i
  have hback : (RawInstr.mk i.mnemonic i.operands).toInstr = some i := toInstr_raw i
  simp [instructionLine, operandTokens_length hlength, mapM_hexOf_operandTokens hlength hfit, hback]

theorem readLine_sourceLine (i : Instr) : readLine (sourceLine i) = .ok (.instruction i) := by
  obtain ⟨hspace, hne, hcomment, hdirective⟩ := mnemonicName_isToken i.mnemonic
  rw [readLine, sourceLine_eq, tokensOf_line _ hspace hne _ (operandTokens_areTokens _ _)]
  simp only [if_neg hcomment, if_neg hdirective, mnemonicOf_mnemonicName]
  exact instructionLine_operandTokens i

/-- A text that can stand as a name: one token, no comment, directive or mnemonic (30_encoding.md R62). -/
def IsName (name : Chars) : Prop :=
  name ≠ [] ∧ NoSpace name ∧ name.head? ≠ some '#' ∧ name.take 2 ≠ ['/', '/'] ∧ mnemonicOf name = none

theorem readLine_name {name : Chars} (h : IsName name) : readLine name = .ok (.reference name) := by
  obtain ⟨hne, hspace, hdirective, hcomment, hmnemonic⟩ := h
  have htokens : tokensOf name = [name] := by simpa using tokensOf_line name hspace hne [] (by simp)
  rw [readLine, htokens]
  simp only [if_neg hcomment, if_neg hdirective, hmnemonic, List.isEmpty_nil, if_true]

theorem readLine_directive {name : Chars} (h : IsName name) :
    readLine (['#', 'f', ' '] ++ name) = .ok (.openDefinition name) := by
  obtain ⟨hne, hspace, -⟩ := h
  have hmark : NoSpace ['#', 'f'] := noSpace_of_all (by decide)
  have htokens : tokensOf (['#', 'f', ' '] ++ name) = [['#', 'f'], name] := by
    simpa using tokensOf_line ['#', 'f'] hmark (by simp) [name] (by simpa using ⟨hspace, hne⟩)
  rw [readLine, htokens]
  rfl

/-! #### Taking lines -/

/-- The assembler takes the lines from one state to the next, wherever they are numbered from. -/
def Takes (s : AsmState) (lines : List Chars) (s' : AsmState) : Prop := ∀ n, s.takeLines n lines = .ok s'

theorem takes_append {s s' s'' : AsmState} {lines lines' : List Chars} (h : Takes s lines s')
    (h' : Takes s' lines' s'') : Takes s (lines ++ lines') s'' :=
  fun n => (takeLines_append (h n)).trans (h' _)

theorem takes_line {s s' : AsmState} {line : Chars} {l : Line} (hread : readLine line = .ok l)
    (htake : s.take l = .ok s') : Takes s [line] s' := by
  intro n
  simp only [AsmState.takeLines, hread, Except.bind, htake]

/-- What instruction lines emit: their encodings in order (30_encoding.md R63). -/
def wordSlots (is : List Instr) : List Slot := (is.map encode).map Slot.word

@[simp] theorem wordSlots_length (is : List Instr) : (wordSlots is).length = is.length := by simp [wordSlots]

@[simp] theorem wordSlots_emitted (is : List Instr) : (wordSlots is).map emittedWord = is.map encode :=
  emitted_words _

@[simp] theorem wordSlots_resolved (starts : List (Chars × Nat)) (is : List Instr) :
    (wordSlots is).map (resolveSlot starts) = is.map encode :=
  resolved_words starts _

@[simp] theorem wordSlots_names (is : List Instr) : (wordSlots is).filterMap Slot.name? = [] :=
  names_of_words _

theorem append_wordSlots_cons (slots : List Slot) (i : Instr) (is : List Instr) :
    slots ++ wordSlots (i :: is) = slots ++ [.word (encode i)] ++ wordSlots is := by
  simp [wordSlots]

/-- Instruction lines outside a definition go to the image (30_encoding.md R65). -/
theorem takes_instructions_outside (is : List Instr) (image : List Slot) (closed : List Definition) :
    Takes ⟨image, closed, none⟩ (is.map sourceLine) ⟨image ++ wordSlots is, closed, none⟩ := by
  induction is generalizing image with
  | nil => exact fun n => by simp [AsmState.takeLines, wordSlots]
  | cons i is ih =>
    have hfirst : Takes ⟨image, closed, none⟩ [sourceLine i] ⟨image ++ [.word (encode i)], closed, none⟩ :=
      takes_line (readLine_sourceLine i) (by simp [AsmState.take, AsmState.emit, AsmState.close])
    rw [append_wordSlots_cons]
    exact takes_append hfirst (ih (image ++ [.word (encode i)]))

/-- Instruction lines other than RET inside a definition go to its buffer (30_encoding.md R65). -/
theorem takes_instructions_inside {is : List Instr} (noRet : Instr.ret ∉ is) (image : List Slot)
    (closed : List Definition) (name : Chars) (buffer : List Slot) :
    Takes ⟨image, closed, some (name, buffer)⟩ (is.map sourceLine)
      ⟨image, closed, some (name, buffer ++ wordSlots is)⟩ := by
  induction is generalizing buffer with
  | nil => exact fun n => by simp [AsmState.takeLines, wordSlots]
  | cons i is ih =>
    obtain ⟨hi, hrest⟩ := not_or.1 (mt List.mem_cons.2 noRet)
    have hfirst : Takes ⟨image, closed, some (name, buffer)⟩ [sourceLine i]
        ⟨image, closed, some (name, buffer ++ [.word (encode i)])⟩ :=
      takes_line (readLine_sourceLine i) (by simp [AsmState.take, AsmState.emit, Ne.symm hi])
    rw [append_wordSlots_cons]
    exact takes_append hfirst (ih hrest (buffer ++ [.word (encode i)]))

theorem takes_reference_outside {used : Chars} (h : IsName used) (image : List Slot) (closed : List Definition) :
    Takes ⟨image, closed, none⟩ [used] ⟨image ++ [.reference used], closed, none⟩ :=
  takes_line (readLine_name h) (congrArg Except.ok (emit_outside rfl _))

theorem takes_reference_inside {used : Chars} (h : IsName used) (image : List Slot) (closed : List Definition)
    (name : Chars) (buffer : List Slot) :
    Takes ⟨image, closed, some (name, buffer)⟩ [used] ⟨image, closed, some (name, buffer ++ [.reference used])⟩ :=
  takes_line (readLine_name h) (congrArg Except.ok (emit_inside rfl _))

theorem takes_directive {name : Chars} (h : IsName name) (image : List Slot) :
    Takes ⟨image, [], none⟩ [['#', 'f', ' '] ++ name] ⟨image, [], some (name, [])⟩ :=
  takes_line (readLine_directive h) rfl

/-- RET adds its own encoding to the open definition and closes it (30_encoding.md R65). -/
theorem takes_ret (image : List Slot) (name : Chars) (buffer : List Slot) :
    Takes ⟨image, [], some (name, buffer)⟩ [sourceLine .ret]
      ⟨image, [(name, buffer ++ [.word (encode .ret)])], none⟩ :=
  takes_line (readLine_sourceLine .ret) rfl

/-! #### Resolving -/

theorem assemble_of_takes {source : List Chars} {s : AsmState} (h : Takes .start source s)
    (fits : Config.programStart.toNat + 2 * (AsmState.resolve source s).length ≤ Config.memSize) :
    assemble source = .ok (AsmState.resolve source s) := by
  rw [assemble, h 1]
  simp only [imageFits, fits, decide_true, if_true]

/-- With one closed definition its words follow the resolved main text, and the references in it are patched
(30_encoding.md R65, R66). -/
theorem resolve_one_definition (source : List Chars) (image buffer : List Slot) (name : Chars) :
    let starts := [(name, Config.programStart.toNat + 2 * image.length)]
    AsmState.resolve source ⟨image, [(name, buffer)], none⟩ =
      patchInside source starts 0 (image.map (resolveSlot starts) ++ buffer.map emittedWord)
        (buffer.filterMap Slot.name?) := by
  simp [AsmState.resolve, AsmState.close, appendOrder_singleton, definitionStarts]

theorem callOf_defined (name : Chars) (start : Nat) :
    callOf [(name, start)] name = some (encode (.cll (BitVec.ofNat 12 start))) := by
  simp [callOf]

theorem patch_undefined (image : List Word) (site : Option Nat) : patch image site none = image := by
  cases site <;> rfl

theorem callOf_undefined {name used : Chars} (h : used ≠ name) (start : Nat) : callOf [(name, start)] used = none := by
  simp [callOf, Ne.symm h]

/-! #### The claims -/

/-- Settles O58: each line adds its instruction's encoding to the image, and there is no definition to append. -/
theorem assemblerEmitsTheEncodings : Obligations.AssemblerEmitsTheEncodings := by
  intro is fits
  have htakes : Takes .start (is.map sourceLine) ⟨wordSlots is, [], none⟩ := takes_instructions_outside is [] []
  have hresolve : AsmState.resolve (is.map sourceLine) ⟨wordSlots is, [], none⟩ = is.map encode :=
    (List.append_nil _).trans (wordSlots_resolved _ is)
  rw [assemble_of_takes htakes (by rwa [hresolve, List.length_map]), hresolve]

/-- A main text with one reference, and a definition that holds none: the reference is the call of the definition's
start (30_encoding.md R66). -/
theorem resolve_reference_outside (source : List Chars) (before after body : List Instr) (name : Chars) :
    AsmState.resolve source ⟨wordSlots before ++ [.reference name] ++ wordSlots after,
        [(name, wordSlots body ++ [.word (encode .ret)])], none⟩ =
      before.map encode ++
        [encode (.cll (BitVec.ofNat 12 (Config.programStart.toNat + 2 * (before.length + 1 + after.length))))] ++
        after.map encode ++ body.map encode ++ [encode .ret] := by
  simp [resolve_one_definition, resolveSlot, callOf_defined, emittedWord, Slot.name?, List.filterMap_cons,
    patchInside_nil, Nat.add_assoc, Nat.add_comm 1]

/-- Settles O59: the main text holds one reference, which resolves to the start of the one definition, and the
definition holds none. -/
theorem referenceBecomesACall : Obligations.ReferenceBecomesACall := by
  intro before after body name hne hspace hdirective hcomment hmnemonic noRet fits
  have hname : IsName name := ⟨hne, hspace, hdirective, hcomment, hmnemonic⟩
  have hbefore := takes_instructions_outside before [] []
  have hreference := takes_append hbefore (takes_reference_outside hname _ _)
  have hafter := takes_append hreference (takes_instructions_outside after _ _)
  have hopen := takes_append hafter (takes_directive hname _)
  have hbody := takes_append hopen (takes_instructions_inside noRet _ _ _ _)
  have htakes := takes_append hbody (takes_ret _ _ _)
  have hresolve (source : List Chars) := resolve_reference_outside source before after body name
  refine (assemble_of_takes htakes ?fits).trans (congrArg Except.ok (hresolve _))
  case fits =>
    refine (congrArg (fun image => Config.programStart.toNat + 2 * image.length) (hresolve _)).trans_le ?_
    simpa [memSize_eq, Nat.add_comm, Nat.add_left_comm, Nat.add_assoc] using fits

/-- A definition with one reference in its body: the placeholder is emitted there, and one free place may be patched. -/
theorem resolve_reference_inside (source : List Chars) (main before after : List Instr) (name used : Chars) :
    AsmState.resolve source ⟨wordSlots main,
        [(name, wordSlots before ++ [.reference used] ++ wordSlots after ++ [.word (encode .ret)])], none⟩ =
      patch (main.map encode ++ before.map encode ++ [Config.placeholderWord] ++ after.map encode ++ [encode .ret])
        (Config.patchedSite source 0)
        (callOf [(name, Config.programStart.toNat + 2 * main.length)] used) := by
  simp [resolve_one_definition, emittedWord, Slot.name?, List.filterMap_cons, patchInside]

/-- Settles O60: only the definition's own name is defined, so any other reference patches nothing. -/
theorem referenceInsideADefinition : Obligations.ReferenceInsideADefinition := by
  intro main before after name used hnames noRetBefore noRetAfter fits
  have hname : IsName name := hnames name (by simp)
  have hused : IsName used := hnames used (by simp)
  have hmain := takes_instructions_outside main [] []
  have hopen := takes_append hmain (takes_directive hname _)
  have hbefore := takes_append hopen (takes_instructions_inside noRetBefore _ _ _ _)
  have hreference := takes_append hbefore (takes_reference_inside hused _ _ _ _)
  have hafter := takes_append hreference (takes_instructions_inside noRetAfter _ _ _ _)
  have htakes := takes_append hafter (takes_ret _ _ _)
  have hresolve (source : List Chars) := resolve_reference_inside source main before after name used
  refine ⟨_, (assemble_of_takes htakes ?fits).trans (congrArg Except.ok (hresolve _)), ?image⟩
  case fits =>
    refine (congrArg (fun image => Config.programStart.toNat + 2 * image.length) (hresolve _)).trans_le ?_
    simpa [memSize_eq, Nat.add_comm, Nat.add_left_comm, Nat.add_assoc] using fits
  case image =>
    intro emitted
    split
    case isTrue hself =>
      subst hself
      rw [callOf_defined]
      cases Config.patchedSite _ 0 with
      | none => exact .inl rfl
      | some place => exact .inr ⟨place, rfl⟩
    case isFalse hself => rw [callOf_undefined hself, patch_undefined]

end Sys2Proof.Machine
end
